-- ==== Sys2Proof/Word.lean ====
section
/-! DEFINITION. Sys2Proof/Word.lean: the machine's bit widths (00_scope.md R7, R12). Every value is unsigned. -/

namespace Sys2Proof

/-- A register, a timer or a byte of Memory: 8 bits (10_state.md R20, R36; 20_memory.md R60). -/
abbrev Byte := BitVec 8

/-- An address, `pc` or `I`: 12 bits (10_state.md R23, R27). -/
abbrev Addr := BitVec 12

/-- An instruction word: 16 bits (30_encoding.md R90). -/
abbrev Word := BitVec 16

/-- A 4-bit field: a register index, a row count or a key code (30_encoding.md R92). -/
abbrev Nibble := BitVec 4

/-- The register index of the flag register `V[0xF]` (10_state.md R21). -/
abbrev flagIndex : Nibble := 0xF#4

end Sys2Proof
end

