-- ==== Sys2Proof/Config.lean ====
section
/-! DEFINITION. Sys2Proof/Config.lean: what one build of the block fixes (sizes, font, the OPEN parameters), the data the
host exchanges with the core, and the free values: opaque constants with no body, so that a claim holds whatever they are. -/

namespace Sys2Proof

/-- A grid of 32 rows of 64 pixels, row 0 on top, column 0 first (10_state.md R34). -/
abbrev Framebuffer := Vector (Vector Bool 64) 32

/-- What the key collaborator may do when asked (50_cycle.md R253): supply a character, supply none, fail, or not have
answered by this step (log 5). -/
inductive KeyReply where
  | char (c : Char)
  | nothing
  | failure
  | notYet
  deriving DecidableEq, Repr, Inhabited

/-- The sink's answer to a `Present` (50_cycle.md R256). -/
inductive SinkAnswer where
  | ok
  | failure
  deriving DecidableEq, Repr, Inhabited

/-- The immutable boot-time configuration (10_state.md R44; 00_scope.md R8, R10). -/
structure Config where
  /-- `SHIFT_COPY`: the shifts first copy `V[y]` into `V[x]`. -/
  shiftCopy : Bool
  /-- `JUMP_VX`: jump-with-offset uses `V[nnn[11:8]]`, not `V[0]`. -/
  jumpVx : Bool
  /-- `INDEX_ADVANCE`: save and load advance `I` by `x`+1. -/
  indexAdvance : Bool
  /-- `STACK_LIMIT`: the greatest depth of the call stack, `none` for unbounded. -/
  stackLimit : Option Nat
  deriving DecidableEq, Repr

/-- The pieces of the state that have no specified value after a fatal stop (60_exceptions.md R312). -/
structure Config.Wreck where
  mem : List Byte
  V : Vector Byte 16
  pc : Addr
  I : Addr
  stack : List Addr
  fb : Framebuffer
  DT : Byte
  ST : Byte
  deriving Inhabited

/-! Sizes (00_scope.md R7). -/

abbrev memSize : Nat := 4096
abbrev maxAddr : Nat := 0xFFF
abbrev fontBase : Nat := 0x050
abbrev glyphBytes : Nat := 5
abbrev fontBytes : Nat := 80
abbrev progBase : Nat := 0x200
abbrev maxImage : Nat := memSize - progBase
abbrev fbWidth : Nat := 64
abbrev fbHeight : Nat := 32

/-! Rates (00_scope.md R9). No rule reads either; the model has no time (70_reset_and_hazards.md R366). -/

/-- `TICK_HZ`. -/
abbrev Config.tickHz : Nat := 60

/-- `CPU_HZ`, OPEN (92_eei_decisions.md D19). -/
opaque Config.cpuHz : Nat

/-! The OPEN quirk parameters (00_scope.md R8, 92_eei_decisions.md D17): no default exists, so a build's values are free. -/

opaque Config.shiftCopyAtBoot : Bool
opaque Config.jumpVxAtBoot : Bool
opaque Config.indexAdvanceAtBoot : Bool

/-- The configuration construction takes: the quirks OPEN, `STACK_LIMIT` at the value the spec takes (00_scope.md R10). -/
def Config.boot : Config :=
  { shiftCopy := Config.shiftCopyAtBoot, jumpVx := Config.jumpVxAtBoot, indexAdvance := Config.indexAdvanceAtBoot,
    stackLimit := none }

/-! Free values, each applied to the counter `HostInputs.draws` (log 2, log 3): what the machine does not determine
(70_reset_and_hazards.md R364). -/

/-- The byte a `Rand8` answers (50_cycle.md R258). -/
opaque Config.rand8 : Nat → Byte

/-- What the key collaborator does when asked (50_cycle.md R253). -/
opaque Config.keyReply : Nat → KeyReply

/-- What the rendering sink answers (50_cycle.md R256). -/
opaque Config.sinkAnswer : Nat → SinkAnswer

/-- How many ticks fall before the next cycle (50_cycle.md R241). -/
opaque Config.tickCount : Nat → Nat

/-- The image the host offers to load (70_reset_and_hazards.md R344). -/
opaque Config.image : Nat → List Byte

/-- The state left by a fatal stop (60_exceptions.md R312). -/
opaque Config.wreck : Nat → Config.Wreck

end Sys2Proof
end

