-- ==== Sys2Proof/Syntax.lean ====
section
/-! DEFINITION. Sys2Proof/Syntax.lean: the 34 instruction variants (30_encoding.md R96), one constructor per row of the
opcode map (R97), in the map's order, each with the payload R96 gives it. `Unknown`, the decoder's 35th output, is no
instruction and stands in Decode.lean. -/

namespace Sys2Proof

/-- The instruction variants. A register operand is a 4-bit field, so no index is out of range (10_state.md R22). -/
inductive Instr where
  | cls
  | ret
  | jp (nnn : Addr)
  | call (nnn : Addr)
  | seImm (x : Nibble) (nn : Byte)
  | sneImm (x : Nibble) (nn : Byte)
  | seReg (x y : Nibble)
  | ldImm (x : Nibble) (nn : Byte)
  | addImm (x : Nibble) (nn : Byte)
  | ldReg (x y : Nibble)
  | orReg (x y : Nibble)
  | andReg (x y : Nibble)
  | xorReg (x y : Nibble)
  | addReg (x y : Nibble)
  | subReg (x y : Nibble)
  | shr (x y : Nibble)
  | subn (x y : Nibble)
  | shl (x y : Nibble)
  | sneReg (x y : Nibble)
  | ldI (nnn : Addr)
  | jpV0 (nnn : Addr)
  | rnd (x : Nibble) (nn : Byte)
  | drw (x y n : Nibble)
  | skp (x : Nibble)
  | sknp (x : Nibble)
  | ldVxDt (x : Nibble)
  | ldVxK (x : Nibble)
  | ldDtVx (x : Nibble)
  | ldStVx (x : Nibble)
  | addI (x : Nibble)
  | ldF (x : Nibble)
  | ldB (x : Nibble)
  | save (x : Nibble)
  | load (x : Nibble)
  deriving DecidableEq, Repr

/-- One decoder output (30_encoding.md R94, R96): an instruction, or `Unknown` carrying the whole word. -/
inductive Decoded where
  | known (i : Instr)
  | unknown (word : Word)
  deriving DecidableEq, Repr

end Sys2Proof
end

