-- ==== Sys2Proof/WellFormed.lean ====
section
/-! DEFINITION. Sys2Proof/WellFormed.lean: the checks on what enters the block from outside its own types. An instruction's
operands are bit fields (30_encoding.md R92), so every `Instr` passes; the checks are stated on plain numbers so that
what they refuse can be written down. -/

namespace Sys2Proof

/-- A register index, a row count or a key code is 0 to 15 (10_state.md R22). -/
def nibbleInRange (k : Nat) : Bool := k ≤ 15

/-- An immediate byte is 0 to 255 (30_encoding.md R93). -/
def byteInRange (b : Nat) : Bool := b ≤ 255

/-- An address is 0x000 to 0xFFF (20_memory.md R60). -/
def addressInRange (a : Nat) : Bool := a ≤ maxAddr

/-- The operands of an instruction lie in the ranges of its fields (30_encoding.md R92, R93). -/
def Instr.wellFormed : Instr → Bool
  | .cls | .ret => true
  | .jp nnn | .call nnn | .ldI nnn | .jpV0 nnn => addressInRange nnn.toNat
  | .seImm x nn | .sneImm x nn | .ldImm x nn | .addImm x nn | .rnd x nn =>
    nibbleInRange x.toNat && byteInRange nn.toNat
  | .seReg x y | .ldReg x y | .orReg x y | .andReg x y | .xorReg x y | .addReg x y | .subReg x y | .shr x y
  | .subn x y | .shl x y | .sneReg x y => nibbleInRange x.toNat && nibbleInRange y.toNat
  | .drw x y n => nibbleInRange x.toNat && nibbleInRange y.toNat && nibbleInRange n.toNat
  | .skp x | .sknp x | .ldVxDt x | .ldVxK x | .ldDtVx x | .ldStVx x | .addI x | .ldF x | .ldB x | .save x
  | .load x => nibbleInRange x.toNat

/-- An image the load accepts: at most `MAX_IMAGE` bytes, of either parity, the empty one included
(70_reset_and_hazards.md R344 to R346). -/
def imageFits (image : List Byte) : Bool := image.length ≤ maxImage

/-- A set of font bytes: 16 glyphs of 5 bytes (00_scope.md R11). -/
def fontFits (font : List Byte) : Bool := font.length = fontBytes

end Sys2Proof
end

