-- ==== Sys2Proof/Decode.lean ====
section
/-! DEFINITION. Sys2Proof/Decode.lean: the Decoder (30_encoding.md): a pure total function of the 16-bit word (R94), by the
dispatch structure of R95; the encoder; and the opcode map R97 as rows of mask, match and payload, against which the
decoder is stated. -/

namespace Sys2Proof

/-- The sub-fields cut from every word, whatever its family (30_encoding.md R92, R105). -/
structure Fields where
  op : Nibble
  x : Nibble
  y : Nibble
  n : Nibble
  nn : Byte
  nnn : Addr
  deriving DecidableEq, Repr

/-- Cut a word into its fields (30_encoding.md R91, R92). -/
def fieldsOf (w : Word) : Fields :=
  { op := w.extractLsb' 12 4, x := w.extractLsb' 8 4, y := w.extractLsb' 4 4, n := w.extractLsb' 0 4,
    nn := w.extractLsb' 0 8, nnn := w.extractLsb' 0 12 }

/-- Family 0 dispatches on `nn`; `x` is not inspected (30_encoding.md R99). -/
def decodeFamily0 (nn : Byte) : Option Instr :=
  if nn = 0xE0#8 then some .cls
  else if nn = 0xEE#8 then some .ret
  else none

/-- Family 8 dispatches on `n` (30_encoding.md R100). -/
def decodeFamily8 (x y n : Nibble) : Option Instr :=
  if n = 0x0#4 then some (.ldReg x y)
  else if n = 0x1#4 then some (.orReg x y)
  else if n = 0x2#4 then some (.andReg x y)
  else if n = 0x3#4 then some (.xorReg x y)
  else if n = 0x4#4 then some (.addReg x y)
  else if n = 0x5#4 then some (.subReg x y)
  else if n = 0x6#4 then some (.shr x y)
  else if n = 0x7#4 then some (.subn x y)
  else if n = 0xE#4 then some (.shl x y)
  else none

/-- Family E dispatches on `nn` (30_encoding.md R101). -/
def decodeFamilyE (x : Nibble) (nn : Byte) : Option Instr :=
  if nn = 0x9E#8 then some (.skp x)
  else if nn = 0xA1#8 then some (.sknp x)
  else none

/-- Family F dispatches on `nn` (30_encoding.md R101). -/
def decodeFamilyF (x : Nibble) (nn : Byte) : Option Instr :=
  if nn = 0x07#8 then some (.ldVxDt x)
  else if nn = 0x0A#8 then some (.ldVxK x)
  else if nn = 0x15#8 then some (.ldDtVx x)
  else if nn = 0x18#8 then some (.ldStVx x)
  else if nn = 0x1E#8 then some (.addI x)
  else if nn = 0x29#8 then some (.ldF x)
  else if nn = 0x33#8 then some (.ldB x)
  else if nn = 0x55#8 then some (.save x)
  else if nn = 0x65#8 then some (.load x)
  else none

/-- The high nibble selects a family (30_encoding.md R95); families 5 and 9 do not inspect `n` (R102). -/
def decodeFields (f : Fields) : Option Instr :=
  if f.op = 0x0#4 then decodeFamily0 f.nn
  else if f.op = 0x1#4 then some (.jp f.nnn)
  else if f.op = 0x2#4 then some (.call f.nnn)
  else if f.op = 0x3#4 then some (.seImm f.x f.nn)
  else if f.op = 0x4#4 then some (.sneImm f.x f.nn)
  else if f.op = 0x5#4 then some (.seReg f.x f.y)
  else if f.op = 0x6#4 then some (.ldImm f.x f.nn)
  else if f.op = 0x7#4 then some (.addImm f.x f.nn)
  else if f.op = 0x8#4 then decodeFamily8 f.x f.y f.n
  else if f.op = 0x9#4 then some (.sneReg f.x f.y)
  else if f.op = 0xA#4 then some (.ldI f.nnn)
  else if f.op = 0xB#4 then some (.jpV0 f.nnn)
  else if f.op = 0xC#4 then some (.rnd f.x f.nn)
  else if f.op = 0xD#4 then some (.drw f.x f.y f.n)
  else if f.op = 0xE#4 then decodeFamilyE f.x f.nn
  else decodeFamilyF f.x f.nn

/-- `Decode(word)` (30_encoding.md R94): exactly one output for every word, `Unknown` for what no row of R97 selects. -/
def decode (w : Word) : Decoded :=
  match decodeFields (fieldsOf w) with
  | some i => .known i
  | none => .unknown w

/-- The word of two consecutive bytes, the byte at the lower address first: big-endian (20_memory.md R68). -/
def wordOfBytes (high low : Byte) : Word := high ++ low

/-- The two bytes of a word as Memory holds them, lowest address first (20_memory.md R68). -/
def bytesOfWord (w : Word) : Byte × Byte := (w.extractLsb' 8 8, w.extractLsb' 0 8)

/-- Decode the instruction at the head of a run of bytes and give the bytes after it; `none` when fewer than two are left
(30_encoding.md R90: there is one length). -/
def decodeBytes : List Byte → Option (Decoded × List Byte)
  | high :: low :: rest => some (decode (wordOfBytes high low), rest)
  | _ => none

/-- The instruction a table word of `nbits` bits stands for: its bytes laid out as Memory holds them, read by the
decoder; `none` where the decoder answers `Unknown`. -/
def decodeTableWord (nbits w : Nat) : Option Instr :=
  let bytes := bytesOfWord (BitVec.ofNat 16 (w % 2 ^ nbits))
  match decodeBytes [bytes.1, bytes.2] with
  | some (.known i, _) => some i
  | _ => none

/-- Format NNN (30_encoding.md R91). -/
def formatNnn (op : Nibble) (nnn : Addr) : Word := op ++ nnn

/-- Formats XNN, XSS and 0SS (30_encoding.md R91). -/
def formatXnn (op x : Nibble) (nn : Byte) : Word := op ++ x ++ nn

/-- Format XYN (30_encoding.md R91). -/
def formatXyn (op x y n : Nibble) : Word := op ++ x ++ y ++ n

/-- The word of an instruction (30_encoding.md R91, R97), nibbles the decoder does not inspect written 0 (R110). -/
def encode : Instr → Word
  | .cls => formatXnn 0x0#4 0x0#4 0xE0#8
  | .ret => formatXnn 0x0#4 0x0#4 0xEE#8
  | .jp nnn => formatNnn 0x1#4 nnn
  | .call nnn => formatNnn 0x2#4 nnn
  | .seImm x nn => formatXnn 0x3#4 x nn
  | .sneImm x nn => formatXnn 0x4#4 x nn
  | .seReg x y => formatXyn 0x5#4 x y 0x0#4
  | .ldImm x nn => formatXnn 0x6#4 x nn
  | .addImm x nn => formatXnn 0x7#4 x nn
  | .ldReg x y => formatXyn 0x8#4 x y 0x0#4
  | .orReg x y => formatXyn 0x8#4 x y 0x1#4
  | .andReg x y => formatXyn 0x8#4 x y 0x2#4
  | .xorReg x y => formatXyn 0x8#4 x y 0x3#4
  | .addReg x y => formatXyn 0x8#4 x y 0x4#4
  | .subReg x y => formatXyn 0x8#4 x y 0x5#4
  | .shr x y => formatXyn 0x8#4 x y 0x6#4
  | .subn x y => formatXyn 0x8#4 x y 0x7#4
  | .shl x y => formatXyn 0x8#4 x y 0xE#4
  | .sneReg x y => formatXyn 0x9#4 x y 0x0#4
  | .ldI nnn => formatNnn 0xA#4 nnn
  | .jpV0 nnn => formatNnn 0xB#4 nnn
  | .rnd x nn => formatXnn 0xC#4 x nn
  | .drw x y n => formatXyn 0xD#4 x y n
  | .skp x => formatXnn 0xE#4 x 0x9E#8
  | .sknp x => formatXnn 0xE#4 x 0xA1#8
  | .ldVxDt x => formatXnn 0xF#4 x 0x07#8
  | .ldVxK x => formatXnn 0xF#4 x 0x0A#8
  | .ldDtVx x => formatXnn 0xF#4 x 0x15#8
  | .ldStVx x => formatXnn 0xF#4 x 0x18#8
  | .addI x => formatXnn 0xF#4 x 0x1E#8
  | .ldF x => formatXnn 0xF#4 x 0x29#8
  | .ldB x => formatXnn 0xF#4 x 0x33#8
  | .save x => formatXnn 0xF#4 x 0x55#8
  | .load x => formatXnn 0xF#4 x 0x65#8

/-- One row of the opcode map: a word `w` selects it when `w & mask = pattern` (30_encoding.md R97). -/
structure OpcodeRow where
  mask : Word
  pattern : Word
  build : Fields → Instr

/-- A word selects a row (30_encoding.md R97). -/
def OpcodeRow.selects (r : OpcodeRow) (w : Word) : Bool := w &&& r.mask = r.pattern

/-- The opcode map, families 0 to 7 (30_encoding.md R97). -/
def opcodeMapLow : List OpcodeRow :=
  [ ⟨0xF0FF#16, 0x00E0#16, fun _ => .cls⟩,
    ⟨0xF0FF#16, 0x00EE#16, fun _ => .ret⟩,
    ⟨0xF000#16, 0x1000#16, fun f => .jp f.nnn⟩,
    ⟨0xF000#16, 0x2000#16, fun f => .call f.nnn⟩,
    ⟨0xF000#16, 0x3000#16, fun f => .seImm f.x f.nn⟩,
    ⟨0xF000#16, 0x4000#16, fun f => .sneImm f.x f.nn⟩,
    ⟨0xF000#16, 0x5000#16, fun f => .seReg f.x f.y⟩,
    ⟨0xF000#16, 0x6000#16, fun f => .ldImm f.x f.nn⟩,
    ⟨0xF000#16, 0x7000#16, fun f => .addImm f.x f.nn⟩ ]

/-- The opcode map, families 8 to D (30_encoding.md R97). -/
def opcodeMapMid : List OpcodeRow :=
  [ ⟨0xF00F#16, 0x8000#16, fun f => .ldReg f.x f.y⟩,
    ⟨0xF00F#16, 0x8001#16, fun f => .orReg f.x f.y⟩,
    ⟨0xF00F#16, 0x8002#16, fun f => .andReg f.x f.y⟩,
    ⟨0xF00F#16, 0x8003#16, fun f => .xorReg f.x f.y⟩,
    ⟨0xF00F#16, 0x8004#16, fun f => .addReg f.x f.y⟩,
    ⟨0xF00F#16, 0x8005#16, fun f => .subReg f.x f.y⟩,
    ⟨0xF00F#16, 0x8006#16, fun f => .shr f.x f.y⟩,
    ⟨0xF00F#16, 0x8007#16, fun f => .subn f.x f.y⟩,
    ⟨0xF00F#16, 0x800E#16, fun f => .shl f.x f.y⟩,
    ⟨0xF000#16, 0x9000#16, fun f => .sneReg f.x f.y⟩,
    ⟨0xF000#16, 0xA000#16, fun f => .ldI f.nnn⟩,
    ⟨0xF000#16, 0xB000#16, fun f => .jpV0 f.nnn⟩,
    ⟨0xF000#16, 0xC000#16, fun f => .rnd f.x f.nn⟩,
    ⟨0xF000#16, 0xD000#16, fun f => .drw f.x f.y f.n⟩ ]

/-- The opcode map, families E and F (30_encoding.md R97). -/
def opcodeMapHigh : List OpcodeRow :=
  [ ⟨0xF0FF#16, 0xE09E#16, fun f => .skp f.x⟩,
    ⟨0xF0FF#16, 0xE0A1#16, fun f => .sknp f.x⟩,
    ⟨0xF0FF#16, 0xF007#16, fun f => .ldVxDt f.x⟩,
    ⟨0xF0FF#16, 0xF00A#16, fun f => .ldVxK f.x⟩,
    ⟨0xF0FF#16, 0xF015#16, fun f => .ldDtVx f.x⟩,
    ⟨0xF0FF#16, 0xF018#16, fun f => .ldStVx f.x⟩,
    ⟨0xF0FF#16, 0xF01E#16, fun f => .addI f.x⟩,
    ⟨0xF0FF#16, 0xF029#16, fun f => .ldF f.x⟩,
    ⟨0xF0FF#16, 0xF033#16, fun f => .ldB f.x⟩,
    ⟨0xF0FF#16, 0xF055#16, fun f => .save f.x⟩,
    ⟨0xF0FF#16, 0xF065#16, fun f => .load f.x⟩ ]

/-- The opcode map (30_encoding.md R97). -/
def opcodeMap : List OpcodeRow := opcodeMapLow ++ opcodeMapMid ++ opcodeMapHigh

end Sys2Proof
end

