-- ==== Sys2Proof/Machine/State.lean ====
section
/-! DEFINITION. Sys2Proof/Machine/State.lean: the state the spec gives the machine (10_state.md), the model's own fields for
the outside, and the state after construction (10_state.md R50 to R58, 70_reset_and_hazards.md R340). -/

namespace Sys2Proof.Machine

/-- Memory as the bytes that differ from their construction value, by rising address (log 8). `Memory.read` and
`Memory.write` in Machine/Ops.lean are its only accesses. -/
abbrev Memory := List Host.Cell

/-- Where the block is in its life (10_state.md R42). -/
inductive Phase where
  | constructed
  | loaded
  | running
  | stopped
  deriving DecidableEq, Repr

/-- The fatal causes (60_exceptions.md R305). Nothing raises `unsupportedInstruction` (45_unknown.md R231) or
`registerIndexOutOfRange` (10_state.md R22). -/
inductive FatalCause where
  | unknownInstruction
  | unsupportedInstruction
  | emptyStackReturn
  | memoryOutOfRange
  | registerIndexOutOfRange
  | addressOverflow
  | stackOverflow
  deriving DecidableEq, Repr

/-- The fault record (60_exceptions.md R311): the cause, the failing word (absent when its fetch failed), the address it
was fetched from (the spec's `at`), and the value recorded beside the cause. -/
structure FaultRecord where
  cause : FatalCause
  word : Option Word
  fetchedAt : Addr
  info : Option Nat
  deriving DecidableEq, Repr

/-- The collaborators whose failure stops the run (60_exceptions.md R318). -/
inductive HostFailureKind where
  | keyRead
  | renderSink
  deriving DecidableEq, Repr

/-- What a key instruction does with its answer, kept while the answer is awaited (10_state.md R48 (c);
44_keys_timers.md R210, R211, R214). -/
inductive KeyRequest where
  | skipIfPressed (x : Nibble)
  | skipIfNotPressed (x : Nibble)
  | bind (x : Nibble)
  deriving DecidableEq, Repr

/-- An answer of `KeyRead()` other than a failure (50_cycle.md R253). -/
inductive KeyAnswer where
  | key (k : Nibble)
  | noKey
  deriving DecidableEq, Repr

/-- What the core gives the host (50_cycle.md R260, 70_reset_and_hazards.md R351). -/
inductive Output where
  | loadAccepted
  | loadRejected
  | present (fb : Framebuffer)
  | fatalReport (r : FaultRecord)
  | hostFailure (k : HostFailureKind)
  deriving DecidableEq, Repr

/-- The host's coming answers, oldest first, and the count of free values drawn so far. The model's own field (log 3):
an empty queue answers with a free value of Config. -/
structure HostInputs where
  images : List (List Byte)
  keys : List KeyReply
  sink : List SinkAnswer
  rand : List Byte
  ticks : List Nat
  draws : Nat
  deriving DecidableEq, Repr

/-- The state of the block. -/
structure State where
  /-- Memory (20_memory.md R60). -/
  mem : Memory
  /-- The general registers (10_state.md R20); `V[0xF]` is the flag (R21). -/
  V : Vector Byte 16
  /-- The program counter (10_state.md R23). -/
  pc : Addr
  /-- The index register (10_state.md R27). -/
  I : Addr
  /-- The call stack, its top at the end (10_state.md R30). -/
  stack : List Addr
  /-- The framebuffer (10_state.md R34). -/
  fb : Framebuffer
  /-- The delay counter (10_state.md R36). -/
  DT : Byte
  /-- The buzzer counter (10_state.md R36). -/
  ST : Byte
  /-- The timer gate (10_state.md R38). -/
  started : Bool
  /-- The fault latch (10_state.md R40). -/
  fatal : Option FaultRecord
  /-- The phase of life (10_state.md R42). -/
  phase : Phase
  /-- The pending key request (10_state.md R48 (c)). -/
  keyWait : Option KeyRequest
  /-- The spec's `at`: the address of the word of the current cycle (50_cycle.md R244). -/
  fetchAt : Addr
  /-- The spec's `word`: the word of the current cycle, absent until its fetch succeeds (50_cycle.md R244). -/
  fetchWord : Option Word
  /-- The configuration: a parameter of the step in the spec, an immutable field here (10_state.md R44, log 1). -/
  config : Config
  /-- What the core has given the host, oldest first: outputs of the run, the model's own field (log 10). -/
  out : List Output
  /-- The host's coming answers, the model's own field (log 3). -/
  host : HostInputs
  deriving DecidableEq, Repr

/-- Why a step answers a fault. -/
inductive Fault where
  /-- Raised by `step` alone, in phase `Stopped`: after a fatal or host-failure stop no agent has a step
  (60_exceptions.md R310, 70_reset_and_hazards.md R341). Safe: the machine does nothing there. -/
  | stopped
  deriving DecidableEq, Repr

/-- Why a step is refused. -/
inductive Refusal where
  /-- The form `exec`'s arm would take for an instruction without a meaning; no arm answers it. Safe. -/
  | notModelled (mnemonic : String)
  deriving DecidableEq, Repr

/-- No answer queued and no free value drawn yet (log 3). -/
def HostInputs.empty : HostInputs :=
  { images := [], keys := [], sink := [], rand := [], ticks := [], draws := 0 }

/-- The state after construction (10_state.md R50 to R58, 70_reset_and_hazards.md R340). No memory cell is listed, so
every byte reads as its construction value; `fetchAt`, `fetchWord`, `keyWait` are log 9 and log 5. -/
def State.reset : State :=
  { mem := []
    V := Vector.replicate 16 0x00#8
    pc := 0x200#12
    I := 0x000#12
    stack := []
    fb := Vector.replicate 32 (Vector.replicate 64 false)
    DT := 0x00#8
    ST := 0x00#8
    started := false
    fatal := none
    phase := .constructed
    keyWait := none
    fetchAt := 0x000#12
    fetchWord := none
    config := Config.boot
    out := []
    host := HostInputs.empty }

end Sys2Proof.Machine
end

