-- ==== Sys2Proof/Machine/Ops.lean ====
section
/-! DEFINITION. Sys2Proof/Machine/Ops.lean: the named operations over Memory, the registers, the call stack, the host's
inputs and the timers; the fatal stop and the host-failure stop, each once for every instruction. -/

namespace Sys2Proof.Machine

/-! ## Memory -/

/-- Glyphs 0 to 3 (20_memory.md R66). -/
def glyphs0to3 : List Byte :=
  [0xF0#8, 0x90#8, 0x90#8, 0x90#8, 0xF0#8, 0x20#8, 0x60#8, 0x20#8, 0x20#8, 0x70#8,
   0xF0#8, 0x10#8, 0xF0#8, 0x80#8, 0xF0#8, 0xF0#8, 0x10#8, 0xF0#8, 0x10#8, 0xF0#8]

/-- Glyphs 4 to 7 (20_memory.md R66). -/
def glyphs4to7 : List Byte :=
  [0x90#8, 0x90#8, 0xF0#8, 0x10#8, 0x10#8, 0xF0#8, 0x80#8, 0xF0#8, 0x10#8, 0xF0#8,
   0xF0#8, 0x80#8, 0xF0#8, 0x90#8, 0xF0#8, 0xF0#8, 0x10#8, 0x20#8, 0x40#8, 0x40#8]

/-- Glyphs 8 to B (20_memory.md R66). -/
def glyphs8toB : List Byte :=
  [0xF0#8, 0x90#8, 0xF0#8, 0x90#8, 0xF0#8, 0xF0#8, 0x90#8, 0xF0#8, 0x10#8, 0xF0#8,
   0xF0#8, 0x90#8, 0xF0#8, 0x90#8, 0x90#8, 0xE0#8, 0x90#8, 0xE0#8, 0x90#8, 0xE0#8]

/-- Glyphs C to F (20_memory.md R66). -/
def glyphsCtoF : List Byte :=
  [0xF0#8, 0x80#8, 0x80#8, 0x80#8, 0xF0#8, 0xE0#8, 0x90#8, 0x90#8, 0x90#8, 0xE0#8,
   0xF0#8, 0x80#8, 0xF0#8, 0x80#8, 0xF0#8, 0xF0#8, 0x80#8, 0xF0#8, 0x80#8, 0x80#8]

/-- `FONT_ROM`: 16 glyphs of 5 bytes (00_scope.md R11, 20_memory.md R66; log 8). -/
def fontRom : List Byte := glyphs0to3 ++ glyphs4to7 ++ glyphs8toB ++ glyphsCtoF

/-- What an unlisted address reads as: its construction value, the font at 0x050 to 0x09F and 0x00 elsewhere
(10_state.md R50; log 8). -/
def Memory.unlisted (a : Nat) : Byte :=
  if fontBase ≤ a then fontRom.getD (a - fontBase) 0x00#8 else 0x00#8

/-- The byte at an address (20_memory.md R60). -/
def Memory.read : Memory → Nat → Byte
  | [], a => Memory.unlisted a
  | (k, b) :: rest, a => if a = k then b else Memory.read rest a

/-- Put a byte at an address (20_memory.md R71), keeping the canonical form: a byte equal to the construction value is
not listed. -/
def Memory.write : Memory → Nat → Byte → Memory
  | [], a, v => if v = Memory.unlisted a then [] else [(a, v)]
  | (k, b) :: rest, a, v =>
    if a < k then (if v = Memory.unlisted a then (k, b) :: rest else (a, v) :: (k, b) :: rest)
    else if a = k then (if v = Memory.unlisted a then rest else (a, v) :: rest)
    else (k, b) :: Memory.write rest a v

/-- Put a run of bytes, lowest address first, with no check: the load (70_reset_and_hazards.md R345). -/
def Memory.writeRun (m : Memory) (a : Nat) : List Byte → Memory
  | [] => m
  | b :: bs => Memory.writeRun (Memory.write m a b) (a + 1) bs

/-- A memory with the given bytes from address 0 upward, those past 0xFFF dropped. -/
def Memory.ofBytes (bs : List Byte) : Memory := Memory.writeRun [] 0 (bs.take memSize)

/-- The canonical form: addresses strictly rising, each in 0x000 to 0xFFF, no byte equal to what its address reads as
when unlisted. -/
abbrev Memory.wf (m : Memory) : Prop :=
  m.Pairwise (fun c d => c.1 < d.1) ∧ ∀ c ∈ m, c.1 ≤ maxAddr ∧ c.2 ≠ Memory.unlisted c.1

/-! ## Conditions that end a cycle -/

/-- A condition raised inside a cycle: the cause, and the value recorded beside it (60_exceptions.md R305). -/
structure Raised where
  cause : FatalCause
  info : Option Nat
  deriving DecidableEq, Repr

/-- The code of a cause (60_exceptions.md R305). -/
def FatalCause.code : FatalCause → Nat
  | .unknownInstruction => 1
  | .unsupportedInstruction => 2
  | .emptyStackReturn => 3
  | .memoryOutOfRange => 4
  | .registerIndexOutOfRange => 5
  | .addressOverflow => 6
  | .stackOverflow => 7

/-- `chk12(v)`: the only way a sum enters `pc` or `I` (10_state.md R26). -/
def chk12 (v : Nat) : Except Raised Addr :=
  if v ≤ maxAddr then .ok (BitVec.ofNat 12 v) else .error ⟨.addressOverflow, some v⟩

/-- `MemRead(addr, 1)` (20_memory.md R70). -/
def readByte (m : Memory) (addr : Nat) : Except Raised Byte :=
  if addr ≤ maxAddr then .ok (Memory.read m addr) else .error ⟨.memoryOutOfRange, some addr⟩

/-- `MemWrite(addr, 1, v)` (20_memory.md R71). -/
def writeByte (m : Memory) (addr : Nat) (v : Byte) : Except Raised Memory :=
  if addr ≤ maxAddr then .ok (Memory.write m addr v) else .error ⟨.memoryOutOfRange, some addr⟩

/-- `MemRead(addr, 2)`: two byte reads in order, big-endian (20_memory.md R68 to R70). -/
def readWord (m : Memory) (addr : Nat) : Except Raised Word :=
  match readByte m addr with
  | .error e => .error e
  | .ok high =>
    match readByte m (addr + 1) with
    | .error e => .error e
    | .ok low => .ok (high ++ low)

/-- `k` byte reads, ascending from `addr` (42_index_memory.md R180, 43_display.md R192). -/
def readBlock (m : Memory) (addr : Nat) : Nat → Except Raised (List Byte)
  | 0 => .ok []
  | k + 1 =>
    match readByte m addr with
    | .error e => .error e
    | .ok b =>
      match readBlock m (addr + 1) k with
      | .error e => .error e
      | .ok bs => .ok (b :: bs)

/-- Byte writes, ascending from `addr` (42_index_memory.md R176, R178). -/
def writeBlock (m : Memory) (addr : Nat) : List Byte → Except Raised Memory
  | [] => .ok m
  | b :: bs =>
    match writeByte m addr b with
    | .error e => .error e
    | .ok m' => writeBlock m' (addr + 1) bs

/-! ## Registers and call stack -/

/-- `V[x]` (10_state.md R20). -/
def State.reg (s : State) (x : Nibble) : Byte := s.V[x.toNat]'x.isLt

/-- `V[x] <- v` (10_state.md R20). -/
def State.setReg (s : State) (x : Nibble) (v : Byte) : State := { s with V := s.V.set x.toNat v x.isLt }

/-- Write bytes into `V[k]`, `V[k+1]`, and on (42_index_memory.md R180). -/
def loadRegs (V : Vector Byte 16) (k : Nat) : List Byte → Vector Byte 16
  | [] => V
  | b :: bs => loadRegs (V.setIfInBounds k b) (k + 1) bs

/-- `Push(a)` (10_state.md R31). -/
def push (s : State) (a : Addr) : Except Raised State :=
  if s.config.stackLimit = some s.stack.length then .error ⟨.stackOverflow, some a.toNat⟩
  else .ok { s with stack := s.stack ++ [a] }

/-- `Pop()` (10_state.md R32): the popped address and the state without it. -/
def pop (s : State) : Except Raised (Addr × State) :=
  match s.stack.getLast? with
  | none => .error ⟨.emptyStackReturn, none⟩
  | some a => .ok (a, { s with stack := s.stack.dropLast })

/-! ## The host's inputs (log 3): a queued answer if there is one, else a free value -/

/-- `Rand8()` (50_cycle.md R258). -/
def HostInputs.takeRand (h : HostInputs) : Byte × HostInputs :=
  match h.rand with
  | r :: rs => (r, { h with rand := rs })
  | [] => (Config.rand8 h.draws, { h with draws := h.draws + 1 })

/-- What the key collaborator does now (50_cycle.md R253). -/
def HostInputs.takeKey (h : HostInputs) : KeyReply × HostInputs :=
  match h.keys with
  | k :: ks => (k, { h with keys := ks })
  | [] => (Config.keyReply h.draws, { h with draws := h.draws + 1 })

/-- The sink's answer to a `Present` (50_cycle.md R256). -/
def HostInputs.takeSink (h : HostInputs) : SinkAnswer × HostInputs :=
  match h.sink with
  | a :: as => (a, { h with sink := as })
  | [] => (Config.sinkAnswer h.draws, { h with draws := h.draws + 1 })

/-- How many ticks fall before the next cycle (50_cycle.md R241). -/
def HostInputs.takeTicks (h : HostInputs) : Nat × HostInputs :=
  match h.ticks with
  | n :: ns => (n, { h with ticks := ns })
  | [] => (Config.tickCount h.draws, { h with draws := h.draws + 1 })

/-- The next image the host offers (70_reset_and_hazards.md R345, R346). -/
def HostInputs.takeImage (h : HostInputs) : List Byte × HostInputs :=
  match h.images with
  | i :: is => (i, { h with images := is })
  | [] => (Config.image h.draws, { h with draws := h.draws + 1 })

/-! ## Stops -/

/-- `raise Fatal(cause, info)` (60_exceptions.md R310): latch the record of R311, stop, report. The rest of the
architectural state has no specified value (R312): free values (log 2). `started` is never cleared (10_state.md R38), the
configuration never changes (R44). -/
def raiseFatal (e : Raised) (s : State) : State :=
  let w := Config.wreck s.host.draws
  let r : FaultRecord := ⟨e.cause, s.fetchWord, s.fetchAt, e.info⟩
  { s with
    mem := Memory.ofBytes w.mem
    V := w.V
    pc := w.pc
    I := w.I
    stack := w.stack
    fb := w.fb
    DT := w.DT
    ST := w.ST
    fatal := some r
    phase := .stopped
    keyWait := none
    out := s.out ++ [.fatalReport r]
    host := { s.host with draws := s.host.draws + 1 } }

/-- End a cycle: the state computed, or the fatal stop of a condition raised in state `s`. -/
def settle (s : State) : Except Raised State → State
  | .ok t => t
  | .error e => raiseFatal e s

/-- `stop HostFailure(kind)` (60_exceptions.md R318): the state as it stands, stopped, the failure told to the caller. -/
def State.hostFailure (s : State) (k : HostFailureKind) : State :=
  { s with phase := .stopped, keyWait := none, out := s.out ++ [.hostFailure k] }

/-- `Present(fb)` (50_cycle.md R256), with the stop a failing sink causes (60_exceptions.md R318). -/
def State.present (s : State) : State :=
  let shown := { s with out := s.out ++ [.present s.fb], host := s.host.takeSink.2 }
  match s.host.takeSink.1 with
  | .ok => shown
  | .failure => shown.hostFailure .renderSink

/-! ## Timers (51_timers.md) -/

/-- The precondition of a tick: the gate open and the run going (51_timers.md R272, R273, R282). -/
def State.ticking (s : State) : Bool := s.started && s.phase = .running

/-- One counter decremented, saturating at zero (51_timers.md R274). -/
def decrement (c : Byte) : Byte := if c = 0#8 then 0#8 else c - 1#8

/-- The tick: both counters in one step, nothing else; no step while it is not enabled (51_timers.md R272, R273). -/
def State.tick (s : State) : State :=
  { s with DT := if s.ticking then decrement s.DT else s.DT, ST := if s.ticking then decrement s.ST else s.ST }

/-- One counter after `n` decrements (51_timers.md R279). -/
def countdown (c : Byte) (n : Nat) : Byte := if c = 0#8 then 0#8 else BitVec.ofNat 8 (c.toNat - n)

/-- `n` ticks at once; `decay_eq_ticks` in Laws/Timers.lean says it is `State.tick` repeated. -/
def State.decay (s : State) (n : Nat) : State :=
  { s with DT := if s.ticking then countdown s.DT n else s.DT, ST := if s.ticking then countdown s.ST n else s.ST }

/-- The timer agent's turn: a free number of ticks (50_cycle.md R241; log 4). -/
def State.timerPhase (s : State) : State :=
  ({ s with host := s.host.takeTicks.2 } : State).decay s.host.takeTicks.1

end Sys2Proof.Machine
end

