-- ==== Sys2Proof/Machine/Operands.lean ====
section
/-! DEFINITION. Sys2Proof/Machine/Operands.lean: the operand forms: addresses, implicit registers, digits, coordinates and
key codes. Narrow operands are zero-extended (30_encoding.md R93); sums are on unbounded numbers (42_index_memory.md R171). -/

namespace Sys2Proof.Machine

/-- `EA(k)` = `I` + `k`, the one addressing mode (42_index_memory.md R171). -/
def effectiveAddress (s : State) (k : Nat) : Nat := s.I.toNat + k

/-- The register of jump-with-offset: `nnn[11:8]` when `JUMP_VX`, else 0 (40_control.md R124). -/
def jumpOffsetIndex (s : State) (nnn : Addr) : Nibble := if s.config.jumpVx then nnn.extractLsb' 8 4 else 0#4

/-- The value a shift shifts: `V[y]` when `SHIFT_COPY`, else `V[x]` (41_alu.md R154). -/
def shiftOperand (s : State) (x y : Nibble) : Byte := if s.config.shiftCopy then s.reg y else s.reg x

/-- The address of the glyph of the low nibble of `d` (20_memory.md R67). -/
def glyphAddress (d : Byte) : Addr := BitVec.ofNat 12 (fontBase + glyphBytes * (d.toNat % 16))

/-- Hundreds, tens and ones (42_index_memory.md R176). -/
def decimalDigits (v : Byte) : List Byte :=
  [BitVec.ofNat 8 (v.toNat / 100), BitVec.ofNat 8 (v.toNat / 10 % 10), BitVec.ofNat 8 (v.toNat % 10)]

/-- `V[0]` to `V[x]`, the block save moves (42_index_memory.md R178). -/
def registerBlock (s : State) (x : Nibble) : List Byte := s.V.toList.take (x.toNat + 1)

/-- The index advance of save and load, when `INDEX_ADVANCE` (42_index_memory.md R178, R180). -/
def advanceIndex (s : State) (x : Nibble) : Except Raised State :=
  if s.config.indexAdvance then
    match chk12 (s.I.toNat + x.toNat + 1) with
    | .error e => .error e
    | .ok a => .ok { s with I := a }
  else .ok s

/-- The column of a sprite's origin: reduced modulo the width (43_display.md R195). -/
def originColumn (v : Byte) : Nat := v.toNat % fbWidth

/-- The row of a sprite's origin: reduced modulo the height (43_display.md R195). -/
def originRow (v : Byte) : Nat := v.toNat % fbHeight

/-- The key code of a character, upper and lower case the same key, any other character no key (50_cycle.md R254). -/
def keyOfChar (c : Char) : KeyAnswer :=
  if 0x30 ≤ c.toNat ∧ c.toNat ≤ 0x39 then .key (BitVec.ofNat 4 (c.toNat - 0x30))
  else if 0x61 ≤ c.toNat ∧ c.toNat ≤ 0x66 then .key (BitVec.ofNat 4 (c.toNat - 0x61 + 10))
  else if 0x41 ≤ c.toNat ∧ c.toNat ≤ 0x46 then .key (BitVec.ofNat 4 (c.toNat - 0x41 + 10))
  else .noKey

/-- `Pressed(ans, v)`: the key code against all 8 bits of `v` (44_keys_timers.md R212). -/
def pressed : KeyAnswer → Byte → Bool
  | .key k, v => k.toNat = v.toNat
  | .noKey, _ => false

/-- A taken skip: `pc <- chk12(pc + 2)` (40_control.md R125). -/
def takeSkip (s : State) : Except Raised State :=
  match chk12 (s.pc.toNat + 2) with
  | .error e => .error e
  | .ok a => .ok { s with pc := a }

/-- Skip the next instruction when the condition holds; when it does not there is no second advance and no fault
(40_control.md R125). -/
def skipIf (condition : Bool) (s : State) : Except Raised State := if condition then takeSkip s else .ok s

end Sys2Proof.Machine
end

