-- ==== Sys2Proof/Machine/KeysTimers.lean ====
section
/-! DEFINITION. Sys2Proof/Machine/KeysTimers.lean: the key and timer instructions (44_keys_timers.md). -/

namespace Sys2Proof.Machine

/-- What a key instruction does with its answer (44_keys_timers.md R210, R211, R214). -/
def finishKey (r : KeyRequest) (a : KeyAnswer) (s : State) : Except Raised State :=
  match r with
  | .skipIfPressed x => skipIf (pressed a (s.reg x)) s
  | .skipIfNotPressed x => skipIf (!pressed a (s.reg x)) s
  | .bind x =>
    match a with
    | .key k => .ok (s.setReg x (k.setWidth 8))
    | .noKey => .ok s

/-- Ask the key collaborator (50_cycle.md R253): an answer completes the request, a failure stops the run
(60_exceptions.md R318), and no answer yet leaves the request pending with nothing else changed (10_state.md R48 (c); log 5). -/
def askKey (r : KeyRequest) (s : State) : State :=
  let t := { s with keyWait := none, host := s.host.takeKey.2 }
  match s.host.takeKey.1 with
  | .char c => settle t (finishKey r (keyOfChar c) t)
  | .nothing => settle t (finishKey r .noKey t)
  | .failure => t.hostFailure .keyRead
  | .notYet => { t with keyWait := some r }

/-- `SKP Vx` (44_keys_timers.md R210). -/
def execSkp (x : Nibble) (s : State) : Host.Outcome State Fault Refusal := .next (askKey (.skipIfPressed x) s)

/-- `SKNP Vx` (44_keys_timers.md R211). -/
def execSknp (x : Nibble) (s : State) : Host.Outcome State Fault Refusal := .next (askKey (.skipIfNotPressed x) s)

/-- `LD Vx, K` (44_keys_timers.md R214): no key leaves `V[x]` as it was, without a retry. -/
def execLdVxK (x : Nibble) (s : State) : Host.Outcome State Fault Refusal := .next (askKey (.bind x) s)

/-- `LD Vx, DT` (44_keys_timers.md R216). -/
def execLdVxDt (x : Nibble) (s : State) : Host.Outcome State Fault Refusal := .next (s.setReg x s.DT)

/-- `LD DT, Vx` (44_keys_timers.md R217). -/
def execLdDtVx (x : Nibble) (s : State) : Host.Outcome State Fault Refusal := .next { s with DT := s.reg x }

/-- `LD ST, Vx` (44_keys_timers.md R218). -/
def execLdStVx (x : Nibble) (s : State) : Host.Outcome State Fault Refusal := .next { s with ST := s.reg x }

end Sys2Proof.Machine
end

