-- ==== Sys2Proof/Machine/Cycle.lean ====
section
/-! DEFINITION. Sys2Proof/Machine/Cycle.lean: the parts of a step around the execute part: fetch and advance (50_cycle.md
R245, R246), the stop of an unknown word (45_unknown.md R230), the load and the run start (70_reset_and_hazards.md R345
to R347), and the bytes of a word placed where the next fetch reads. -/

namespace Sys2Proof.Machine

/-- The end of fetch and advance: a word to decode, or the state of a fatal stop. -/
inductive Fetched where
  | word (w : Word) (s : State)
  | stop (s : State)

/-- `at <- pc; word <- MemRead(pc, 2); pc <- chk12(pc + 2)` (50_cycle.md R244 to R246); `word` is absent from the record
when the fetch itself fails (60_exceptions.md R310). -/
def fetchAndAdvance (s : State) : Fetched :=
  let s0 := { s with fetchAt := s.pc, fetchWord := none }
  match readWord s.mem s.pc.toNat with
  | .error e => .stop (raiseFatal e s0)
  | .ok w =>
    let s1 := { s with fetchAt := s.pc, fetchWord := some w }
    match chk12 (s.pc.toNat + 2) with
    | .error e => .stop (raiseFatal e s1)
    | .ok p => .word w { s1 with pc := p }

/-- `Unknown(word)` (45_unknown.md R230). -/
def unknownInstruction (w : Word) (s : State) : State := raiseFatal ⟨.unknownInstruction, some w.toNat⟩ s

/-- The load of one image (70_reset_and_hazards.md R345, R346): accepted when it fits, else nothing changes; the host is
told which. -/
def State.loadImage (s : State) (image : List Byte) : State :=
  if imageFits image then
    { s with mem := Memory.writeRun s.mem progBase image, phase := .loaded, out := s.out ++ [.loadAccepted] }
  else { s with out := s.out ++ [.loadRejected] }

/-- The host offers its next image (log 6). -/
def State.offerImage (s : State) : State :=
  ({ s with host := s.host.takeImage.2 } : State).loadImage s.host.takeImage.1

/-- Run start (50_cycle.md R243, 70_reset_and_hazards.md R347). -/
def State.runStart (s : State) : State := { s with started := true, phase := .running }

/-- Store the two bytes of a word at an address, high byte first (20_memory.md R68); bytes past 0xFFF are dropped. -/
def placeWord (m : Memory) (a : Nat) (w : Word) : Memory :=
  let bytes := bytesOfWord w
  let m1 := if a ≤ maxAddr then Memory.write m a bytes.1 else m
  if a + 1 ≤ maxAddr then Memory.write m1 (a + 1) bytes.2 else m1

end Sys2Proof.Machine
end

