-- ==== Sys2Proof/Machine/Flags.lean ====
section
/-! DEFINITION. Sys2Proof/Machine/Flags.lean: every value an instruction writes into the flag register (10_state.md R28) and
the order of that write (R29). -/

namespace Sys2Proof.Machine

/-- A flag is exactly 0x00 or 0x01 (10_state.md R28). -/
def flagByte (b : Bool) : Byte := if b then 1#8 else 0#8

/-- Unsigned overflow of an addition: `a + b > 255` on the integers (41_alu.md R149, R150). -/
def carryFlag (a b : Byte) : Byte := flagByte (a.toNat + b.toNat > 255)

/-- No borrow in `a - b`: `a >= b` (41_alu.md R149, R151, R152). -/
def noBorrowFlag (a b : Byte) : Byte := flagByte (a.toNat ≥ b.toNat)

/-- The bit a right shift puts out (41_alu.md R155). -/
def lowBitFlag (v : Byte) : Byte := flagByte (v.getLsbD 0)

/-- The bit a left shift puts out (41_alu.md R156). -/
def highBitFlag (v : Byte) : Byte := flagByte (v.getLsbD 7)

/-- The collision flag of a blit (43_display.md R192). -/
def collisionFlag (erased : Bool) : Byte := flagByte erased

/-- Write the result, then the flag: the flag is last, so it stands when `x` is 0xF (10_state.md R29). -/
def State.setResultAndFlag (s : State) (x : Nibble) (result flag : Byte) : State :=
  (s.setReg x result).setReg flagIndex flag

end Sys2Proof.Machine
end

