-- ==== Sys2Proof/Machine/Alu.lean ====
section
/-! DEFINITION. Sys2Proof/Machine/Alu.lean: the register, arithmetic, logic, shift and random instructions (41_alu.md). Byte
arithmetic wraps modulo 256 (R149); only the flag instructions write `V[0xF]` beside their destination (R141). -/

namespace Sys2Proof.Machine

/-- `LD Vx, nn` (41_alu.md R142). -/
def execLdImm (x : Nibble) (nn : Byte) (s : State) : Host.Outcome State Fault Refusal := .next (s.setReg x nn)

/-- `ADD Vx, nn` (41_alu.md R143): no carry is recorded. -/
def execAddImm (x : Nibble) (nn : Byte) (s : State) : Host.Outcome State Fault Refusal :=
  .next (s.setReg x (s.reg x + nn))

/-- `LD Vx, Vy` (41_alu.md R144). -/
def execLdReg (x y : Nibble) (s : State) : Host.Outcome State Fault Refusal := .next (s.setReg x (s.reg y))

/-- `OR Vx, Vy` (41_alu.md R145). -/
def execOrReg (x y : Nibble) (s : State) : Host.Outcome State Fault Refusal :=
  .next (s.setReg x (s.reg x ||| s.reg y))

/-- `AND Vx, Vy` (41_alu.md R146). -/
def execAndReg (x y : Nibble) (s : State) : Host.Outcome State Fault Refusal :=
  .next (s.setReg x (s.reg x &&& s.reg y))

/-- `XOR Vx, Vy` (41_alu.md R147). -/
def execXorReg (x y : Nibble) (s : State) : Host.Outcome State Fault Refusal :=
  .next (s.setReg x (s.reg x ^^^ s.reg y))

/-- `ADD Vx, Vy` (41_alu.md R150): the flag is the carry out, no carry is added in. -/
def execAddReg (x y : Nibble) (s : State) : Host.Outcome State Fault Refusal :=
  .next (s.setResultAndFlag x (s.reg x + s.reg y) (carryFlag (s.reg x) (s.reg y)))

/-- `SUB Vx, Vy` (41_alu.md R151). -/
def execSubReg (x y : Nibble) (s : State) : Host.Outcome State Fault Refusal :=
  .next (s.setResultAndFlag x (s.reg x - s.reg y) (noBorrowFlag (s.reg x) (s.reg y)))

/-- `SUBN Vx, Vy` (41_alu.md R152): the operands exchanged, the destination still `V[x]`. -/
def execSubn (x y : Nibble) (s : State) : Host.Outcome State Fault Refusal :=
  .next (s.setResultAndFlag x (s.reg y - s.reg x) (noBorrowFlag (s.reg y) (s.reg x)))

/-- `SHR Vx, Vy` (41_alu.md R155). -/
def execShr (x y : Nibble) (s : State) : Host.Outcome State Fault Refusal :=
  .next (s.setResultAndFlag x (shiftOperand s x y >>> 1) (lowBitFlag (shiftOperand s x y)))

/-- `SHL Vx, Vy` (41_alu.md R156). -/
def execShl (x y : Nibble) (s : State) : Host.Outcome State Fault Refusal :=
  .next (s.setResultAndFlag x (shiftOperand s x y <<< 1) (highBitFlag (shiftOperand s x y)))

/-- `RND Vx, nn` (41_alu.md R160): `r` is the host's, a free value when none is queued (log 3). -/
def execRnd (x : Nibble) (nn : Byte) (s : State) : Host.Outcome State Fault Refusal :=
  .next (({ s with host := s.host.takeRand.2 } : State).setReg x (nn &&& s.host.takeRand.1))

end Sys2Proof.Machine
end

