-- ==== Sys2Proof/Machine/Control.lean ====
section
/-! DEFINITION. Sys2Proof/Machine/Control.lean: the control transfer instructions (40_control.md). In every meaning `pc` has
already been advanced past the instruction (10_state.md R23). -/

namespace Sys2Proof.Machine

/-- `RET` (40_control.md R120). -/
def execRet (s : State) : Host.Outcome State Fault Refusal :=
  .next (settle s (match pop s with
    | .error e => .error e
    | .ok (a, t) => .ok { t with pc := a }))

/-- `JP nnn` (40_control.md R121). -/
def execJp (nnn : Addr) (s : State) : Host.Outcome State Fault Refusal := .next { s with pc := nnn }

/-- `CALL nnn` (40_control.md R122): pushes the advanced `pc`. -/
def execCall (nnn : Addr) (s : State) : Host.Outcome State Fault Refusal :=
  .next (settle s (match push s s.pc with
    | .error e => .error e
    | .ok t => .ok { t with pc := nnn }))

/-- `JP V0, nnn` (40_control.md R124). -/
def execJpV0 (nnn : Addr) (s : State) : Host.Outcome State Fault Refusal :=
  .next (settle s (match chk12 (nnn.toNat + (s.reg (jumpOffsetIndex s nnn)).toNat) with
    | .error e => .error e
    | .ok a => .ok { s with pc := a }))

/-- `SE Vx, nn` (40_control.md R126). -/
def execSeImm (x : Nibble) (nn : Byte) (s : State) : Host.Outcome State Fault Refusal :=
  .next (settle s (skipIf (s.reg x = nn) s))

/-- `SNE Vx, nn` (40_control.md R127). -/
def execSneImm (x : Nibble) (nn : Byte) (s : State) : Host.Outcome State Fault Refusal :=
  .next (settle s (skipIf (s.reg x ≠ nn) s))

/-- `SE Vx, Vy` (40_control.md R128). -/
def execSeReg (x y : Nibble) (s : State) : Host.Outcome State Fault Refusal :=
  .next (settle s (skipIf (s.reg x = s.reg y) s))

/-- `SNE Vx, Vy` (40_control.md R129). -/
def execSneReg (x y : Nibble) (s : State) : Host.Outcome State Fault Refusal :=
  .next (settle s (skipIf (s.reg x ≠ s.reg y) s))

end Sys2Proof.Machine
end

