-- ==== Sys2Proof/Machine/Display.lean ====
section
/-! DEFINITION. Sys2Proof/Machine/Display.lean: the Framebuffer component and its two instructions (43_display.md). -/

namespace Sys2Proof.Machine

/-- All pixels off (43_display.md R190, R197). -/
def Framebuffer.clear : Framebuffer := Vector.replicate 32 (Vector.replicate 64 false)

/-- `fb[row][col]`; off outside the grid (10_state.md R34). -/
def Framebuffer.pixel (fb : Framebuffer) (row col : Nat) : Bool :=
  if h : row < 32 ∧ col < 64 then (fb[row]'h.1)[col]'h.2 else false

/-- `fb[row][col] <- b`; nothing outside the grid. -/
def Framebuffer.setPixel (fb : Framebuffer) (row col : Nat) (b : Bool) : Framebuffer :=
  if h : row < 32 ∧ col < 64 then fb.set row ((fb[row]'h.1).set col b h.2) h.1 else fb

/-- Sprite column `c` of a row byte: bit 7 - `c`, the most significant bit leftmost (43_display.md R193). -/
def spriteBit (b : Byte) (c : Nat) : Bool := b.getLsbD (7 - c)

/-- One pixel of a blit: skipped outside the display, else XORed and tested for an erased pixel (43_display.md R194). -/
def blitPixel (ox oy r : Nat) (b : Byte) (acc : Framebuffer × Bool) (c : Nat) : Framebuffer × Bool :=
  if ox + c > 63 ∨ oy + r > 31 then acc
  else
    (Framebuffer.setPixel acc.1 (oy + r) (ox + c) (Framebuffer.pixel acc.1 (oy + r) (ox + c) ^^ spriteBit b c),
      acc.2 || (Framebuffer.pixel acc.1 (oy + r) (ox + c) && spriteBit b c))

/-- One sprite row: columns 0 to 7 (43_display.md R194). -/
def blitRow (ox oy r : Nat) (b : Byte) (acc : Framebuffer × Bool) : Framebuffer × Bool :=
  (List.range 8).foldl (blitPixel ox oy r b) acc

/-- The rows of a sprite from row `r` on (43_display.md R194). -/
def blitRows (ox oy r : Nat) (acc : Framebuffer × Bool) : List Byte → Framebuffer × Bool
  | [] => acc
  | b :: bs => blitRows ox oy (r + 1) (blitRow ox oy r b acc) bs

/-- `Blit(fb, ox, oy, sprite)`: the new framebuffer and the collision bit (43_display.md R194). -/
def blit (fb : Framebuffer) (ox oy : Nat) (sprite : List Byte) : Framebuffer × Bool :=
  blitRows ox oy 0 (fb, false) sprite

/-- `CLS` (43_display.md R190): clear, then one `Present`. -/
def execCls (s : State) : Host.Outcome State Fault Refusal :=
  .next (({ s with fb := Framebuffer.clear } : State).present)

/-- The effect of a `DRW` whose sprite has been read: the blit, the flag, one `Present` (43_display.md R192). -/
def drawSprite (x y : Nibble) (sprite : List Byte) (s : State) : State :=
  let drawn := blit s.fb (originColumn (s.reg x)) (originRow (s.reg y)) sprite
  ((({ s with fb := drawn.1 } : State).setReg flagIndex (collisionFlag drawn.2))).present

/-- `DRW Vx, Vy, n` (43_display.md R192): all `n` rows are read, clipped ones too. -/
def execDrw (x y n : Nibble) (s : State) : Host.Outcome State Fault Refusal :=
  .next (settle s (match readBlock s.mem (effectiveAddress s 0) n.toNat with
    | .error e => .error e
    | .ok sprite => .ok (drawSprite x y sprite s)))

end Sys2Proof.Machine
end

