-- ==== Sys2Proof/Machine/IndexMemory.lean ====
section
/-! DEFINITION. Sys2Proof/Machine/IndexMemory.lean: the index register, loads and stores (42_index_memory.md). -/

namespace Sys2Proof.Machine

/-- `LD I, nnn` (42_index_memory.md R170). -/
def execLdI (nnn : Addr) (s : State) : Host.Outcome State Fault Refusal := .next { s with I := nnn }

/-- `ADD I, Vx` (42_index_memory.md R172): no flag, no wrap. -/
def execAddI (x : Nibble) (s : State) : Host.Outcome State Fault Refusal :=
  .next (settle s (match chk12 (s.I.toNat + (s.reg x).toNat) with
    | .error e => .error e
    | .ok a => .ok { s with I := a }))

/-- `LD F, Vx` (42_index_memory.md R174). -/
def execLdF (x : Nibble) (s : State) : Host.Outcome State Fault Refusal :=
  .next { s with I := glyphAddress (s.reg x) }

/-- `LD B, Vx` (42_index_memory.md R176): `I` is not changed. -/
def execLdB (x : Nibble) (s : State) : Host.Outcome State Fault Refusal :=
  .next (settle s (match writeBlock s.mem (effectiveAddress s 0) (decimalDigits (s.reg x)) with
    | .error e => .error e
    | .ok m => .ok { s with mem := m }))

/-- `LD [I], Vx` (42_index_memory.md R178): the block, then the index advance. -/
def execSave (x : Nibble) (s : State) : Host.Outcome State Fault Refusal :=
  .next (settle s (match writeBlock s.mem (effectiveAddress s 0) (registerBlock s x) with
    | .error e => .error e
    | .ok m => advanceIndex { s with mem := m } x))

/-- `LD Vx, [I]` (42_index_memory.md R180): the block, then the index advance. -/
def execLoad (x : Nibble) (s : State) : Host.Outcome State Fault Refusal :=
  .next (settle s (match readBlock s.mem (effectiveAddress s 0) (x.toNat + 1) with
    | .error e => .error e
    | .ok bs => advanceIndex { s with V := loadRegs s.V 0 bs } x))

end Sys2Proof.Machine
end

