-- ==== Sys2Proof/Machine/Run.lean ====
section
/-! DEFINITION. Sys2Proof/Machine/Run.lean: the CPU agent's and the timer agent's parts of a step while the run goes
(50_cycle.md R240, R241, R244, R249). -/

namespace Sys2Proof.Machine

/-- Decode and execute a fetched word (50_cycle.md R247, R248), or the stop its fetch ended in. -/
def executeFetched : Fetched → Host.Outcome State Fault Refusal
  | .stop s => .next s
  | .word w s =>
    match decode w with
    | .known i => exec i s
    | .unknown w => .next (unknownInstruction w s)

/-- The CPU agent's part: the pending key request if there is one, else one cycle (50_cycle.md R244, R249). -/
def cpuStep (s : State) : Host.Outcome State Fault Refusal :=
  match s.keyWait with
  | some r => .next (askKey r s)
  | none => executeFetched (fetchAndAdvance s)

/-- Let the timer agent take its turn after the CPU agent's part (log 4). -/
def thenTimers : Host.Outcome State Fault Refusal → Host.Outcome State Fault Refusal
  | .next s => .next s.timerPhase
  | .fault f => .fault f
  | .refused r => .refused r

/-- The state `execute` sees after fetching `w` and advancing `pc` (50_cycle.md R246). -/
def State.fetched (s : State) (w : Word) : State :=
  { s with fetchAt := s.pc, fetchWord := some w, pc := s.pc + 2#12 }

end Sys2Proof.Machine
end

