-- ==== Sys2Proof/Machine/Step.lean ====
section
/-! DEFINITION. Sys2Proof/Machine/Step.lean: one step of the block, by phase (70_reset_and_hazards.md R341). -/

namespace Sys2Proof.Machine

/-- One step: the host's load, the run start, a cycle with the ticks that follow it, or no step after a stop
(70_reset_and_hazards.md R341). -/
def step (s : State) : Host.Outcome State Fault Refusal :=
  match s.phase with
  | .constructed => .next s.offerImage
  | .loaded => .next s.runStart
  | .running => thenTimers (cpuStep s)
  | .stopped => .fault .stopped

/-- `s` with an instruction word placed where the next step fetches, and the run going, so that the next step runs it: it
stands for the load and the run start (log 6). -/
def State.withFetchWord (s : State) (nbits w : Nat) : State :=
  { s with
    mem := placeWord s.mem s.pc.toNat (BitVec.ofNat 16 (w % 2 ^ nbits))
    phase := .running
    started := true
    keyWait := none }

end Sys2Proof.Machine
end

