-- ==== Sys2Proof/Safety.lean ====
section
/-! DEFINITION. Sys2Proof/Safety.lean: the words claims are stated in: the pieces of the state and what a step leaves alone,
a fatal stop, a good and a finished run, and the invariants of the block's life. -/

namespace Sys2Proof.Machine

/-- The pieces of the state. -/
inductive Part where
  | mem | regs | pc | index | stack | fb | delay | buzzer | started | fatal | phase | keyWait | fetch | config | out | host
  deriving DecidableEq, Repr

/-- A piece is the same in both states; Memory byte by byte, through `Memory.read`. -/
def Part.same : Part → State → State → Prop
  | .mem, s, t => ∀ a, Memory.read t.mem a = Memory.read s.mem a
  | .regs, s, t => ∀ k, t.reg k = s.reg k
  | .pc, s, t => t.pc = s.pc
  | .index, s, t => t.I = s.I
  | .stack, s, t => t.stack = s.stack
  | .fb, s, t => t.fb = s.fb
  | .delay, s, t => t.DT = s.DT
  | .buzzer, s, t => t.ST = s.ST
  | .started, s, t => t.started = s.started
  | .fatal, s, t => t.fatal = s.fatal
  | .phase, s, t => t.phase = s.phase
  | .keyWait, s, t => t.keyWait = s.keyWait
  | .fetch, s, t => t.fetchAt = s.fetchAt ∧ t.fetchWord = s.fetchWord
  | .config, s, t => t.config = s.config
  | .out, s, t => t.out = s.out
  | .host, s, t => t.host = s.host

/-- `t` is `s` but for the named pieces: the frame of an instruction. -/
def Keeps (changed : List Part) (s t : State) : Prop := ∀ p, p ∉ changed → p.same s t

/-- The record a fatal stop in state `s` latches (60_exceptions.md R311). -/
def faultRecord (cause : FatalCause) (info : Option Nat) (s : State) : FaultRecord :=
  { cause := cause, word := s.fetchWord, fetchedAt := s.fetchAt, info := info }

/-- `t` is a fatal stop of the cycle in state `s` (60_exceptions.md R310): what has a value there (R312) and no more.
The record's `at` is the spec's decision D14 (log 11); the gate and the configuration kept are DEDUCED (log 2). -/
def StopsWith (cause : FatalCause) (info : Option Nat) (s t : State) : Prop :=
  t.fatal = some (faultRecord cause info s) ∧ t.phase = .stopped ∧ t.started = s.started ∧ t.config = s.config ∧
    t.out = s.out ++ [.fatalReport (faultRecord cause info s)]

/-- A good state of a run: nothing has stopped it (60_exceptions.md R312). -/
def State.Good (s : State) : Prop := s.fatal = none ∧ s.phase ≠ .stopped

/-- The end-of-run marker: a jump to itself at `pc` (70_reset_and_hazards.md R350). DESIGN CHOICE (log 13), unsafe: the rule does
not say whether a state suspended in a key instruction, its `pc` already on the self-jump, or one outside phase Running is
finished; `keyWait` and `phase` are not tested here, so both count. -/
def State.Finished (s : State) : Prop :=
  s.fatal = none ∧ s.pc.toNat < maxAddr ∧
    wordOfBytes (Memory.read s.mem s.pc.toNat) (Memory.read s.mem (s.pc.toNat + 1)) = encode (.jp s.pc)

/-- The pieces an instruction may change, when no fatal stop ends it (10_state.md R24, R27, R28, R30, R34, R36; 20_memory.md
R61). A `Present` and a key request take an answer of the host, and a failing collaborator stops the run (60_exceptions.md R318). -/
def mayChange : Instr → List Part
  | .cls => [.fb, .out, .host, .phase, .keyWait]
  | .drw _ _ _ => [.fb, .regs, .out, .host, .phase, .keyWait]
  | .ret | .call _ => [.stack, .pc]
  | .jp _ | .jpV0 _ | .seImm _ _ | .sneImm _ _ | .seReg _ _ | .sneReg _ _ => [.pc]
  | .ldImm _ _ | .addImm _ _ | .ldReg _ _ | .orReg _ _ | .andReg _ _ | .xorReg _ _ | .addReg _ _ | .subReg _ _
  | .shr _ _ | .subn _ _ | .shl _ _ | .ldVxDt _ => [.regs]
  | .rnd _ _ => [.regs, .host]
  | .ldI _ | .addI _ | .ldF _ => [.index]
  | .ldB _ => [.mem]
  | .save _ => [.mem, .index]
  | .load _ => [.regs, .index]
  | .skp _ | .sknp _ => [.pc, .keyWait, .host, .phase, .out]
  | .ldVxK _ => [.regs, .keyWait, .host, .phase, .out]
  | .ldDtVx _ => [.delay]
  | .ldStVx _ => [.buzzer]

/-- The registers an instruction may write: its destination, and `V[0xF]` for the flag writers (10_state.md R28; 41_alu.md
R141; 42_index_memory.md R180). -/
def mayWriteReg : Instr → Nibble → Bool
  | .ldImm x _, k | .addImm x _, k | .ldReg x _, k | .orReg x _, k | .andReg x _, k | .xorReg x _, k | .rnd x _, k
  | .ldVxDt x, k | .ldVxK x, k => k = x
  | .addReg x _, k | .subReg x _, k | .shr x _, k | .subn x _, k | .shl x _, k => k = x ∨ k = flagIndex
  | .drw _ _ _, k => k = flagIndex
  | .load x, k => k.toNat ≤ x.toNat
  | .cls, _ | .ret, _ | .jp _, _ | .call _, _ | .seImm _ _, _ | .sneImm _ _, _ | .seReg _ _, _ | .sneReg _ _, _
  | .ldI _, _ | .jpV0 _, _ | .skp _, _ | .sknp _, _ | .ldDtVx _, _ | .ldStVx _, _ | .addI _, _ | .ldF _, _
  | .ldB _, _ | .save _, _ => false

/-- The fatal causes the execute part of an instruction may raise (60_exceptions.md R306). -/
def mayRaise : Instr → List FatalCause
  | .ret => [.emptyStackReturn]
  | .call _ => [.stackOverflow]
  | .seImm _ _ | .sneImm _ _ | .seReg _ _ | .sneReg _ _ | .skp _ | .sknp _ | .jpV0 _ | .addI _ => [.addressOverflow]
  | .ldB _ | .drw _ _ _ => [.memoryOutOfRange]
  | .save _ | .load _ => [.memoryOutOfRange, .addressOverflow]
  | .cls | .jp _ | .ldImm _ _ | .addImm _ _ | .ldReg _ _ | .orReg _ _ | .andReg _ _ | .xorReg _ _ | .addReg _ _
  | .subReg _ _ | .shr _ _ | .subn _ _ | .shl _ _ | .ldI _ | .rnd _ _ | .ldVxDt _ | .ldVxK _ | .ldDtVx _
  | .ldStVx _ | .ldF _ => []

/-- The answer of `KeyRead()` in a reply of the host, if the reply is one (50_cycle.md R253, R254). -/
def answerOf : KeyReply → Option KeyAnswer
  | .char c => some (keyOfChar c)
  | .nothing => some .noKey
  | .failure => none
  | .notYet => none

/-- An output that reports a stop (70_reset_and_hazards.md R351). -/
def Output.isReport : Output → Bool
  | .fatalReport _ => true
  | .hostFailure _ => true
  | _ => false

/-- The invariant of the block's life: Memory canonical, the gate open exactly from the run start on, the latch set only
in a stop, a key request pending only in a run, exactly one report once stopped and none before, a fatal report exactly
when the latch holds it, the stack within its limit until a stop. -/
structure State.Inv (s : State) : Prop where
  memory : s.mem.wf
  gate : s.started = true ↔ s.phase = .running ∨ s.phase = .stopped
  latch : s.fatal.isSome → s.phase = .stopped
  waiting : s.keyWait.isSome → s.phase = .running
  reports : s.out.countP Output.isReport = if s.phase = .stopped then 1 else 0
  reported : ∀ r, Output.fatalReport r ∈ s.out ↔ s.fatal = some r
  depth : s.phase ≠ .stopped → ∀ n, s.config.stackLimit = some n → s.stack.length ≤ n

/-- Before the run the registers, `pc`, `I`, the stack, the framebuffer, the counters, the gate and Memory below 0x200 are at their
construction values (70_reset_and_hazards.md R345 to R349). -/
structure State.Unstarted (s : State) : Prop where
  regs : s.V = State.reset.V
  pc : s.pc = 0x200#12
  index : s.I = 0x000#12
  stack : s.stack = []
  screen : s.fb = Framebuffer.clear
  timers : s.DT = 0#8 ∧ s.ST = 0#8
  gate : s.started = false
  lowMemory : ∀ a, a < progBase → Memory.read s.mem a = Memory.unlisted a

end Sys2Proof.Machine
end

