-- ==== Sys2Proof/Certificates/Slice0/Obligations.lean ====
section
/-! DEFINITION. Sys2Proof/Certificates/Slice0/Obligations.lean: the statements for the provers. Each is about the machine, in
the terms of Safety.lean; its docstring names the rule it formalises and what in it is a decision of the spec or of the model.
Two such points recur, and each statement's cites name them. A decode clause rests on the opcode number of its row, the spec's
decision D1 (log 11), but for the rows the source shows (30_encoding.md R97: CLS, RET, JP, ADD Vx nn, DRW, LD [I] Vx). In
`StopsWith` the record's `at` is the spec's decision D14 (log 11); the gate and the configuration kept are log 2. -/

open Sys2Proof Sys2Proof.Machine

/-! ## The decoder and the encoder -/

/-- 30_encoding.md R106: the source's six decode examples. -/
def Obligations.DecodesSourceExamples : Prop :=
  decode 0x00E0#16 = .known .cls ∧ decode 0x00EE#16 = .known .ret ∧ decode 0x1245#16 = .known (.jp 0x245#12) ∧
    decode 0x7F4A#16 = .known (.addImm 0xF#4 0x4A#8) ∧ decode 0xD6FA#16 = .known (.drw 0x6#4 0xF#4 0xA#4) ∧
    decode 0xF055#16 = .known (.save 0x0#4)

/-- 30_encoding.md R91, R92, R97: no bit of an operand is lost between encoder and decoder. -/
def Obligations.DecodeOfEncodeIsInstruction : Prop := ∀ i : Instr, decode (encode i) = .known i

/-- 30_encoding.md R97, R94: the dispatching decoder (R95) answers, for every word, the variant of the row that selects
it, with the fields of R92, and `Unknown` of the word when none does. The row numbers are the spec's decisions D1 and D5. -/
def Obligations.DecoderAgreesWithOpcodeMap : Prop :=
  ∀ w : Word,
    (∀ r ∈ opcodeMap, r.selects w = true → decode w = .known (r.build (fieldsOf w))) ∧
      ((∀ r ∈ opcodeMap, r.selects w = false) → decode w = .unknown w)

/-- 30_encoding.md R97: "Rows never overlap". -/
def Obligations.OpcodeMapRowsNeverOverlap : Prop := ∀ w : Word, opcodeMap.countP (fun r => r.selects w) ≤ 1

/-- 30_encoding.md R99, R102: the nibbles the decoder does not inspect (the spec's decision D5). -/
def Obligations.UninspectedNibblesDoNotMatter : Prop :=
  ∀ x y n : Nibble,
    decode (formatXnn 0x0#4 x 0xE0#8) = .known .cls ∧ decode (formatXnn 0x0#4 x 0xEE#8) = .known .ret ∧
      decode (formatXyn 0x5#4 x y n) = .known (.seReg x y) ∧ decode (formatXyn 0x9#4 x y n) = .known (.sneReg x y)

/-! ## Construction, load, run start -/

/-- 10_state.md R50 to R58: the state after construction. The zeros and `pc` are the spec's decisions D11 and D12, the glyph
bytes D20 (log 8); the closed gate is the source's (R57). -/
def Obligations.ConstructionState : Prop :=
  (∀ k, State.reset.reg k = 0x00#8) ∧ State.reset.pc.toNat = 0x200 ∧ State.reset.I.toNat = 0 ∧
    State.reset.stack = [] ∧ (∀ row col, Framebuffer.pixel State.reset.fb row col = false) ∧
    State.reset.DT.toNat = 0 ∧ State.reset.ST.toNat = 0 ∧ State.reset.started = false ∧ State.reset.fatal = none ∧
    State.reset.phase = .constructed ∧
    (∀ a, a < 0x050 ∨ 0x09F < a → Memory.read State.reset.mem a = 0x00#8) ∧
    (List.range 5).map (fun j => Memory.read State.reset.mem (0x050 + j)) = [0xF0#8, 0x90#8, 0x90#8, 0x90#8, 0xF0#8] ∧
    (List.range 5).map (fun j => Memory.read State.reset.mem (0x082 + j)) = [0xF0#8, 0x90#8, 0xF0#8, 0x90#8, 0x90#8] ∧
    (List.range 5).map (fun j => Memory.read State.reset.mem (0x09B + j)) = [0xF0#8, 0x80#8, 0xF0#8, 0x80#8, 0x80#8]

/-- 70_reset_and_hazards.md R345: an image of at most 3584 bytes is put at 0x200 upward, every other byte keeps its value,
and nothing but Memory and `phase` changes. The image and the answer reach the model through its `host` and `out`. -/
def Obligations.LoadAcceptsFittingImage : Prop :=
  ∀ s : State, s.phase = .constructed → s.mem.wf → s.host.takeImage.1.length ≤ 3584 →
    ∃ t, step s = .next t ∧
      (∀ a, Memory.read t.mem a =
        if h : 0x200 ≤ a ∧ a < 0x200 + s.host.takeImage.1.length then s.host.takeImage.1[a - 0x200]'(by omega)
        else Memory.read s.mem a) ∧
      t.phase = .loaded ∧ t.out = s.out ++ [.loadAccepted] ∧ t.host = s.host.takeImage.2 ∧
      Keeps [.mem, .phase, .out, .host] s t

/-- 70_reset_and_hazards.md R346: a longer image is refused with no effect on the state, and the host is told. -/
def Obligations.LoadRejectsOversizedImage : Prop :=
  ∀ s : State, s.phase = .constructed → 3584 < s.host.takeImage.1.length →
    ∃ t, step s = .next t ∧ t.phase = .constructed ∧ t.fatal = s.fatal ∧ t.out = s.out ++ [.loadRejected] ∧
      t.host = s.host.takeImage.2 ∧ Keeps [.out, .host] s t

/-- 70_reset_and_hazards.md R347: the run start opens the gate and changes nothing else. -/
def Obligations.RunStartOpensGate : Prop :=
  ∀ s : State, s.phase = .loaded →
    ∃ t, step s = .next t ∧ t.started = true ∧ t.phase = .running ∧ Keeps [.started, .phase] s t

/-- 70_reset_and_hazards.md R341: the moves of `phase`, and no step once stopped (60_exceptions.md R310). -/
def Obligations.PhaseMovesOnlyByLifecycle : Prop :=
  ∀ s : State,
    (s.phase = .constructed → ∃ t, step s = .next t ∧
      if s.host.takeImage.1.length ≤ 3584 then t.phase = .loaded else t.phase = .constructed) ∧
    (s.phase = .loaded → ∃ t, step s = .next t ∧ t.phase = .running) ∧
    (s.phase = .running → ∃ t, step s = .next t ∧ (t.phase = .running ∨ t.phase = .stopped)) ∧
    (s.phase = .stopped → step s = .fault .stopped ∧ Keeps [] s s.tick)

/-- The invariant of the block's life (`State.Inv`) is kept by every step. -/
def Obligations.StepKeepsInvariant : Prop := ∀ s t : State, s.Inv → step s = .next t → t.Inv

/-- The state after construction meets the invariant of the block's life. -/
def Obligations.ConstructionMeetsInvariant : Prop := State.reset.Inv

/-- 10_state.md R44, R38, R40; 70_reset_and_hazards.md R351: no step changes the configuration, closes the gate, or takes
back an output; a latched fatal record ends all steps. -/
def Obligations.StepNeverUndoes : Prop :=
  ∀ s t : State, s.Inv → step s = .next t →
    t.config = s.config ∧ (s.started = true → t.started = true) ∧ (∃ new, t.out = s.out ++ new) ∧ s.fatal = none

/-- 70_reset_and_hazards.md R343, R345 to R348: until the run starts every step leaves the registers, `pc`, `I`, the stack, the
framebuffer, the counters, the gate and Memory below 0x200 at their construction values; so the first instruction finds `pc` =
0x200 and the font in place. `fatal`, `keyWait`, `fetchAt`, `fetchWord`, `config` and Memory from 0x200 up are not in
`State.Unstarted`: the load and run start statements frame them. Canonical memory is a premise, which StepKeepsInvariant keeps.
The values are the spec's decisions D11 and D12, the font D20 (log 8, log 11). -/
def Obligations.StateUnstartedUntilRun : Prop :=
  ∀ s t : State, s.mem.wf → (s.phase = .constructed ∨ s.phase = .loaded → s.Unstarted) → step s = .next t →
    (t.phase = .constructed ∨ t.phase = .loaded → t.Unstarted) ∧
      (s.phase = .loaded → t.pc.toNat = 0x200 ∧ ∀ a, a < 0x200 → Memory.read t.mem a = Memory.unlisted a)

/-! ## The cycle -/

/-- 50_cycle.md R244: with no request pending and the top of memory not reached, a step is the execute part of the
decoded instruction in the state with the word and its address recorded and `pc` advanced by 2, followed by the timer
agent's turn: a number of ticks, the host's queues aside (log 4). -/
def Obligations.StepRunsDecodedInstruction : Prop :=
  ∀ (s : State) (w : Word) (i : Instr), s.phase = .running → s.keyWait = none → s.pc.toNat + 2 ≤ 0xFFF →
    w = wordOfBytes (Memory.read s.mem s.pc.toNat) (Memory.read s.mem (s.pc.toNat + 1)) → decode w = .known i →
    ∃ f t : State,
      f.pc.toNat = s.pc.toNat + 2 ∧ f.fetchAt = s.pc ∧ f.fetchWord = some w ∧ Keeps [.pc, .fetch] s f ∧
      f.mem = s.mem ∧ f.V = s.V ∧ exec i f = .next t ∧
      step s = .next (State.tick^[t.host.takeTicks.1] { t with host := t.host.takeTicks.2 })

/-- 50_cycle.md R245, R246; 60_exceptions.md R308: at 0xFFF the fetch, at 0xFFE the advance ends the cycle in a fatal
stop, whatever the word is (the spec's decisions D6, D7 and D29; the record's `at` is D14). -/
def Obligations.FetchStopsAtTopOfMemory : Prop :=
  ∀ s : State, s.phase = .running → s.keyWait = none →
    (s.pc.toNat = 0xFFF → ∃ t, step s = .next t ∧
      t.fatal = some { cause := .memoryOutOfRange, word := none, fetchedAt := s.pc, info := some 0x1000 } ∧
      t.phase = .stopped) ∧
    (s.pc.toNat = 0xFFE → ∃ t, step s = .next t ∧
      t.fatal = some { cause := .addressOverflow,
                       word := some (wordOfBytes (Memory.read s.mem 0xFFE) (Memory.read s.mem 0xFFF)),
                       fetchedAt := s.pc, info := some 0x1000 } ∧
      t.phase = .stopped)

/-- 45_unknown.md R230: a word that decodes to `Unknown` stops the run and is reported, never skipped. -/
def Obligations.UnknownWordStopsRun : Prop :=
  ∀ (s : State) (w : Word), s.phase = .running → s.keyWait = none → s.pc.toNat + 2 ≤ 0xFFF →
    w = wordOfBytes (Memory.read s.mem s.pc.toNat) (Memory.read s.mem (s.pc.toNat + 1)) → decode w = .unknown w →
    ∃ t r, step s = .next t ∧ t.phase = .stopped ∧ t.fatal = some r ∧ r.cause = .unknownInstruction ∧
      r.word = some w ∧ r.info = some w.toNat ∧ r.fetchedAt = s.pc ∧ t.out = s.out ++ [.fatalReport r]

/-- 70_reset_and_hazards.md R350: from the end marker every step leaves all but the timers (the marker is the spec's
decision D22; a jump at 0xFFE is never executed, 10_state.md R26, decision D6). Running with no request pending is a premise, since
`State.Finished` tests neither (log 13). -/
def Obligations.FinishedProgramStaysFinished : Prop :=
  ∀ s : State, s.Finished → s.phase = .running → s.keyWait = none → s.pc.toNat + 2 ≤ 0xFFF →
    ∃ t, step s = .next t ∧ t.Finished ∧ Keeps [.delay, .buzzer, .fetch, .host] s t ∧
      t.DT.toNat ≤ s.DT.toNat ∧ t.ST.toNat ≤ s.ST.toNat

/-! ## Rules over all instructions -/

/-- 10_state.md R24, R27, R28, R30, R34, R36; 20_memory.md R61: what each instruction may change when no fatal stop ends
it, piece by piece (`mayChange`). -/
def Obligations.InstructionsChangeOnlyTheirPieces : Prop :=
  ∀ (i : Instr) (s t : State), exec i s = .next t → t.fatal = none → Keeps (mayChange i) s t

/-- 10_state.md R28, 41_alu.md R141: a register that is neither the destination nor, for a flag writer, `V[0xF]` is
unchanged (that the other instructions leave the flag alone is the spec's decision D9). -/
def Obligations.OnlyDestinationsAndFlagChange : Prop :=
  ∀ (i : Instr) (s t : State) (k : Nibble), exec i s = .next t → t.fatal = none → mayWriteReg i k = false →
    t.reg k = s.reg k

/-- 60_exceptions.md R306, R310, R311: the execute part ends in a fatal stop only with a cause listed for the instruction,
latching the word and address of its own cycle (the record's `at` is the spec's decision D14). That the stop keeps the gate and
the configuration is no word of those rules: it is log 2, deduced from 10_state.md R38 and R44. -/
def Obligations.FatalCausesAreListed : Prop :=
  ∀ (i : Instr) (s t : State), exec i s = .next t → s.fatal = none →
    t.fatal = none ∨ ∃ cause info, cause ∈ mayRaise i ∧ StopsWith cause info s t

/-- 50_cycle.md R242: a cycle whose instruction touches no timer commutes with a tick, while the run goes on. -/
def Obligations.CyclesCommuteWithTicks : Prop :=
  ∀ (i : Instr) (s t : State), (∀ x, i ≠ .ldVxDt x ∧ i ≠ .ldDtVx x ∧ i ≠ .ldStVx x) → s.phase = .running →
    exec i s = .next t → t.phase = .running → exec i s.tick = .next t.tick

/-! ## The timer subsystem -/

/-- 51_timers.md R273: one tick, while enabled, decrements both counters, saturating at zero, and changes nothing else;
while not enabled there is no tick (R272). -/
def Obligations.TickDecrementsBothCounters : Prop :=
  ∀ s : State,
    (s.started = true ∧ s.phase = .running →
      s.tick.DT.toNat = s.DT.toNat - 1 ∧ s.tick.ST.toNat = s.ST.toNat - 1) ∧
    (¬ (s.started = true ∧ s.phase = .running) → s.tick.DT = s.DT ∧ s.tick.ST = s.ST) ∧
    Keeps [.delay, .buzzer] s s.tick

/-- 51_timers.md R274: after `n` ticks a counter holds what is left of it, never less than zero. -/
def Obligations.RepeatedTicksSaturate : Prop :=
  ∀ (s : State) (n : Nat), s.started = true → s.phase = .running →
    (State.tick^[n] s).DT.toNat = s.DT.toNat - n ∧ (State.tick^[n] s).ST.toNat = s.ST.toNat - n ∧
      Keeps [.delay, .buzzer] s (State.tick^[n] s)

/-- 51_timers.md R279: a delay written and read back after `n` ticks reads `max(v - n, 0)`. -/
def Obligations.DelayReadsBackLessTicks : Prop :=
  ∀ (s : State) (x y : Nibble) (n : Nat), s.started = true → s.phase = .running →
    ∃ t u, exec (.ldDtVx x) s = .next t ∧ exec (.ldVxDt y) (State.tick^[n] t) = .next u ∧
      (u.reg y).toNat = (s.reg x).toNat - n

/-- 51_timers.md R279: over a step that goes on, `DT` rises only by `LD DT, Vx` and `ST` only by `LD ST, Vx`. -/
def Obligations.TimersRiseOnlyByWrites : Prop :=
  ∀ s t : State, s.phase = .running → step s = .next t → t.phase = .running →
    ((∀ x, s.keyWait = none →
        decode (wordOfBytes (Memory.read s.mem s.pc.toNat) (Memory.read s.mem (s.pc.toNat + 1))) ≠ .known (.ldDtVx x)) →
      t.DT.toNat ≤ s.DT.toNat) ∧
    ((∀ x, s.keyWait = none →
        decode (wordOfBytes (Memory.read s.mem s.pc.toNat) (Memory.read s.mem (s.pc.toNat + 1))) ≠ .known (.ldStVx x)) →
      t.ST.toNat ≤ s.ST.toNat)

/-- 44_keys_timers.md R216, R217, R218: each timer instruction moves one byte between `V[x]` and its counter. -/
def Obligations.TimerInstructionsMoveOneByte : Prop :=
  ∀ (x : Nibble) (s : State),
    (decode (formatXnn 0xF#4 x 0x07#8) = .known (.ldVxDt x) ∧ ∃ t, exec (.ldVxDt x) s = .next t ∧
      (∀ k, t.reg k = if k = x then s.DT else s.reg k) ∧ Keeps [.regs] s t) ∧
    (decode (formatXnn 0xF#4 x 0x15#8) = .known (.ldDtVx x) ∧ ∃ t, exec (.ldDtVx x) s = .next t ∧
      t.DT = s.reg x ∧ Keeps [.delay] s t) ∧
    (decode (formatXnn 0xF#4 x 0x18#8) = .known (.ldStVx x) ∧ ∃ t, exec (.ldStVx x) s = .next t ∧
      t.ST = s.reg x ∧ Keeps [.buzzer] s t)

/-! ## Control transfer -/

/-- 40_control.md R120: `RET` pops the stack into `pc`; an empty stack is fatal (the record's `at` is the spec's decision D14).
That the word decodes so for every `x` is decision D5 (30_encoding.md R99; log 11). -/
def Obligations.ReturnPopsPc : Prop :=
  ∀ (x : Nibble) (s : State), decode (formatXnn 0x0#4 x 0xEE#8) = .known .ret ∧
    (∀ rest a, s.stack = rest ++ [a] →
      ∃ t, exec .ret s = .next t ∧ t.pc = a ∧ t.stack = rest ∧ Keeps [.pc, .stack] s t) ∧
    (s.stack = [] → ∃ t, exec .ret s = .next t ∧ StopsWith .emptyStackReturn none s t)

/-- 40_control.md R121: `JP nnn` sets `pc`, to any 12-bit value. -/
def Obligations.JumpSetsPc : Prop :=
  ∀ (nnn : Addr) (s : State), decode (formatNnn 0x1#4 nnn) = .known (.jp nnn) ∧
    ∃ t, exec (.jp nnn) s = .next t ∧ t.pc = nnn ∧ Keeps [.pc] s t

/-- 40_control.md R122: `CALL nnn` pushes the advanced `pc` and sets `pc`; it overflows only at the limit. -/
def Obligations.CallPushesAdvancedPc : Prop :=
  ∀ (nnn : Addr) (s : State), decode (formatNnn 0x2#4 nnn) = .known (.call nnn) ∧
    (s.config.stackLimit ≠ some s.stack.length →
      ∃ t, exec (.call nnn) s = .next t ∧ t.pc = nnn ∧ t.stack = s.stack ++ [s.pc] ∧ Keeps [.pc, .stack] s t) ∧
    (s.config.stackLimit = some s.stack.length →
      ∃ t, exec (.call nnn) s = .next t ∧ StopsWith .stackOverflow (some s.pc.toNat) s t)

/-- 40_control.md R122, R120: "a Call followed immediately by a Return restores pc", and the stack and all else with it. -/
def Obligations.CallThenReturnRestores : Prop :=
  ∀ (nnn : Addr) (s : State), s.config.stackLimit ≠ some s.stack.length →
    ∃ t u, exec (.call nnn) s = .next t ∧ exec .ret t = .next u ∧ Keeps [] s u

/-- 40_control.md R124: jump-with-offset adds `V[0]`, or `V[nnn[11:8]]` when `JUMP_VX`, to the whole `nnn`; a sum above
0xFFF is fatal (the sum is general knowledge G6, the stop the spec's decision D6). -/
def Obligations.JumpWithOffsetAddsRegister : Prop :=
  ∀ (nnn : Addr) (s : State) (target : Nat),
    target = nnn.toNat + (s.reg (if s.config.jumpVx then nnn.extractLsb' 8 4 else 0x0#4)).toNat →
    decode (formatNnn 0xB#4 nnn) = .known (.jpV0 nnn) ∧
    (target ≤ 0xFFF → ∃ t, exec (.jpV0 nnn) s = .next t ∧ t.pc.toNat = target ∧ Keeps [.pc] s t) ∧
    (0xFFF < target → ∃ t, exec (.jpV0 nnn) s = .next t ∧ StopsWith .addressOverflow (some target) s t)

/-- 40_control.md R125 to R129: each skip adds 2 to `pc` exactly when its condition holds and changes nothing else
(which word skips on which condition is the spec's decision D2, the opcode numbers D1, and that 5xy_ and 9xy_ do so for every
low nibble `n` is decision D5, 30_encoding.md R102; log 11). -/
def Obligations.SkipsAddTwoOnCondition : Prop :=
  ∀ (x y n : Nibble) (nn : Byte) (s : State), s.pc.toNat + 2 ≤ 0xFFF →
    (decode (formatXnn 0x3#4 x nn) = .known (.seImm x nn) ∧ ∃ t, exec (.seImm x nn) s = .next t ∧
      t.pc.toNat = s.pc.toNat + (if s.reg x = nn then 2 else 0) ∧ Keeps [.pc] s t) ∧
    (decode (formatXnn 0x4#4 x nn) = .known (.sneImm x nn) ∧ ∃ t, exec (.sneImm x nn) s = .next t ∧
      t.pc.toNat = s.pc.toNat + (if s.reg x = nn then 0 else 2) ∧ Keeps [.pc] s t) ∧
    (decode (formatXyn 0x5#4 x y n) = .known (.seReg x y) ∧ ∃ t, exec (.seReg x y) s = .next t ∧
      t.pc.toNat = s.pc.toNat + (if s.reg x = s.reg y then 2 else 0) ∧ Keeps [.pc] s t) ∧
    (decode (formatXyn 0x9#4 x y n) = .known (.sneReg x y) ∧ ∃ t, exec (.sneReg x y) s = .next t ∧
      t.pc.toNat = s.pc.toNat + (if s.reg x = s.reg y then 0 else 2) ∧ Keeps [.pc] s t)

/-- 40_control.md R125, 10_state.md R26: at the top of memory a taken skip is fatal, a skip not taken is not (the spec's
decision D6). -/
def Obligations.TakenSkipPastTopStops : Prop :=
  ∀ (x y : Nibble) (nn : Byte) (s : State), 0xFFF < s.pc.toNat + 2 →
    (if s.reg x = nn then
      (∃ t, exec (.seImm x nn) s = .next t ∧ StopsWith .addressOverflow (some (s.pc.toNat + 2)) s t) ∧
        ∃ t, exec (.sneImm x nn) s = .next t ∧ Keeps [] s t
    else
      (∃ t, exec (.seImm x nn) s = .next t ∧ Keeps [] s t) ∧
        ∃ t, exec (.sneImm x nn) s = .next t ∧ StopsWith .addressOverflow (some (s.pc.toNat + 2)) s t) ∧
    (if s.reg x = s.reg y then
      (∃ t, exec (.seReg x y) s = .next t ∧ StopsWith .addressOverflow (some (s.pc.toNat + 2)) s t) ∧
        ∃ t, exec (.sneReg x y) s = .next t ∧ Keeps [] s t
    else
      (∃ t, exec (.seReg x y) s = .next t ∧ Keeps [] s t) ∧
        ∃ t, exec (.sneReg x y) s = .next t ∧ StopsWith .addressOverflow (some (s.pc.toNat + 2)) s t)

/-! ## Register, arithmetic, logic, shift and random instructions -/

/-- 41_alu.md R142, R143: set-immediate and add-immediate, modulo 256, with no carry recorded (the spec's decision D9). -/
def Obligations.ImmediateFormsWriteDestination : Prop :=
  ∀ (x : Nibble) (nn : Byte) (s : State),
    (decode (formatXnn 0x6#4 x nn) = .known (.ldImm x nn) ∧ ∃ t, exec (.ldImm x nn) s = .next t ∧
      (∀ k, t.reg k = if k = x then nn else s.reg k) ∧ Keeps [.regs] s t) ∧
    (decode (formatXnn 0x7#4 x nn) = .known (.addImm x nn) ∧ ∃ t, exec (.addImm x nn) s = .next t ∧
      (∀ k, (t.reg k).toNat = if k = x then ((s.reg x).toNat + nn.toNat) % 256 else (s.reg k).toNat) ∧
      Keeps [.regs] s t)

/-- 41_alu.md R144 to R147: copy and the three bitwise operations, bit by bit; the flag is not cleared (the spec's decision
D9; the operand roles are general knowledge G7). -/
def Obligations.CopyAndBitwiseFormsWriteDestination : Prop :=
  ∀ (x y : Nibble) (s : State),
    (decode (formatXyn 0x8#4 x y 0x0#4) = .known (.ldReg x y) ∧ ∃ t, exec (.ldReg x y) s = .next t ∧
      (∀ k, t.reg k = if k = x then s.reg y else s.reg k) ∧ Keeps [.regs] s t) ∧
    (decode (formatXyn 0x8#4 x y 0x1#4) = .known (.orReg x y) ∧ ∃ t, exec (.orReg x y) s = .next t ∧
      (∀ b, (t.reg x).getLsbD b = ((s.reg x).getLsbD b || (s.reg y).getLsbD b)) ∧
      (∀ k, k ≠ x → t.reg k = s.reg k) ∧ Keeps [.regs] s t) ∧
    (decode (formatXyn 0x8#4 x y 0x2#4) = .known (.andReg x y) ∧ ∃ t, exec (.andReg x y) s = .next t ∧
      (∀ b, (t.reg x).getLsbD b = ((s.reg x).getLsbD b && (s.reg y).getLsbD b)) ∧
      (∀ k, k ≠ x → t.reg k = s.reg k) ∧ Keeps [.regs] s t) ∧
    (decode (formatXyn 0x8#4 x y 0x3#4) = .known (.xorReg x y) ∧ ∃ t, exec (.xorReg x y) s = .next t ∧
      (∀ b, (t.reg x).getLsbD b = ((s.reg x).getLsbD b ^^ (s.reg y).getLsbD b)) ∧
      (∀ k, k ≠ x → t.reg k = s.reg k) ∧ Keeps [.regs] s t)

/-- 41_alu.md R150: the sum modulo 256 and its carry; the flag is written last, so it stands when `x` is 0xF (10_state.md
R29, the spec's decision D8). -/
def Obligations.AdditionSetsCarry : Prop :=
  ∀ (x y : Nibble) (s : State), decode (formatXyn 0x8#4 x y 0x4#4) = .known (.addReg x y) ∧
    ∃ t, exec (.addReg x y) s = .next t ∧ Keeps [.regs] s t ∧
      ∀ k, (t.reg k).toNat =
        if k = 0xF#4 then (if (s.reg x).toNat + (s.reg y).toNat > 255 then 1 else 0)
        else if k = x then ((s.reg x).toNat + (s.reg y).toNat) % 256
        else (s.reg k).toNat

/-- 41_alu.md R151, R152: the differences in both orders, modulo 256, and the flag 1 when no borrow occurred; the flag is
written last (10_state.md R29, the spec's decision D8). -/
def Obligations.SubtractionsSetNoBorrow : Prop :=
  ∀ (x y : Nibble) (s : State),
    (decode (formatXyn 0x8#4 x y 0x5#4) = .known (.subReg x y) ∧
      ∃ t, exec (.subReg x y) s = .next t ∧ Keeps [.regs] s t ∧
        ∀ k, (t.reg k).toNat =
          if k = 0xF#4 then (if (s.reg x).toNat ≥ (s.reg y).toNat then 1 else 0)
          else if k = x then (256 + (s.reg x).toNat - (s.reg y).toNat) % 256
          else (s.reg k).toNat) ∧
    (decode (formatXyn 0x8#4 x y 0x7#4) = .known (.subn x y) ∧
      ∃ t, exec (.subn x y) s = .next t ∧ Keeps [.regs] s t ∧
        ∀ k, (t.reg k).toNat =
          if k = 0xF#4 then (if (s.reg y).toNat ≥ (s.reg x).toNat then 1 else 0)
          else if k = x then (256 + (s.reg y).toNat - (s.reg x).toNat) % 256
          else (s.reg k).toNat)

/-- 41_alu.md R154 to R156: the value shifted is `V[y]` when `SHIFT_COPY`, else `V[x]`; halved or doubled modulo 256, the
flag the bit shifted out, written last (10_state.md R29, the spec's decision D8). -/
def Obligations.ShiftsMoveOneBit : Prop :=
  ∀ (x y : Nibble) (s : State) (v : Nat), v = (if s.config.shiftCopy then s.reg y else s.reg x).toNat →
    (decode (formatXyn 0x8#4 x y 0x6#4) = .known (.shr x y) ∧
      ∃ t, exec (.shr x y) s = .next t ∧ Keeps [.regs] s t ∧
        ∀ k, (t.reg k).toNat = if k = 0xF#4 then v % 2 else if k = x then v / 2 else (s.reg k).toNat) ∧
    (decode (formatXyn 0x8#4 x y 0xE#4) = .known (.shl x y) ∧
      ∃ t, exec (.shl x y) s = .next t ∧ Keeps [.regs] s t ∧
        ∀ k, (t.reg k).toNat = if k = 0xF#4 then v / 128 else if k = x then v * 2 % 256 else (s.reg k).toNat)

/-- 41_alu.md R160: `RND` masks a byte the machine does not determine, so the result has zeros wherever `nn` has; it holds
for every byte the host answers (log 3). -/
def Obligations.RandomIsMasked : Prop :=
  ∀ (x : Nibble) (nn : Byte) (s : State), decode (formatXnn 0xC#4 x nn) = .known (.rnd x nn) ∧
    ∃ t, exec (.rnd x nn) s = .next t ∧ t.host = s.host.takeRand.2 ∧ Keeps [.regs, .host] s t ∧
      (∀ k, k ≠ x → t.reg k = s.reg k) ∧
      ∀ b, (t.reg x).getLsbD b = (nn.getLsbD b && s.host.takeRand.1.getLsbD b)

/-! ## Index register, loads and stores -/

/-- 42_index_memory.md R170, R174: `LD I, nnn`, and `LD F, Vx` with the glyph address of the low nibble. The
opcode numbers Annn and Fx29 are the spec's decision D1 (general knowledge G1 and G3; log 11). -/
def Obligations.IndexLoads : Prop :=
  ∀ (nnn : Addr) (x : Nibble) (s : State),
    (decode (formatNnn 0xA#4 nnn) = .known (.ldI nnn) ∧
      ∃ t, exec (.ldI nnn) s = .next t ∧ t.I = nnn ∧ Keeps [.index] s t) ∧
    (decode (formatXnn 0xF#4 x 0x29#8) = .known (.ldF x) ∧
      ∃ t, exec (.ldF x) s = .next t ∧ t.I.toNat = 0x050 + 5 * ((s.reg x).toNat % 16) ∧ Keeps [.index] s t)

/-- 42_index_memory.md R172: `ADD I, Vx` adds, writes no flag, and is fatal above 0xFFF (the spec's decisions D6 and D9; that
the increment is `V[x]` is general knowledge G8). -/
def Obligations.AddIndexAddsRegister : Prop :=
  ∀ (x : Nibble) (s : State), decode (formatXnn 0xF#4 x 0x1E#8) = .known (.addI x) ∧
    (s.I.toNat + (s.reg x).toNat ≤ 0xFFF →
      ∃ t, exec (.addI x) s = .next t ∧ t.I.toNat = s.I.toNat + (s.reg x).toNat ∧ Keeps [.index] s t) ∧
    (0xFFF < s.I.toNat + (s.reg x).toNat →
      ∃ t, exec (.addI x) s = .next t ∧ StopsWith .addressOverflow (some (s.I.toNat + (s.reg x).toNat)) s t)

/-- 42_index_memory.md R176: the three decimal digits at `I`, `I`+1, `I`+2, every other byte and `I` unchanged, and a fatal
stop with the first address above 0xFFF. Memory is canonical (`State.Inv`). The opcode number Fx33 is the spec's decision D1
(general knowledge G3), the record's `at` D14 (log 11). -/
def Obligations.DecimalSplitStoresDigits : Prop :=
  ∀ (x : Nibble) (s : State), s.mem.wf → decode (formatXnn 0xF#4 x 0x33#8) = .known (.ldB x) ∧
    (s.I.toNat + 2 ≤ 0xFFF →
      ∃ t, exec (.ldB x) s = .next t ∧ Keeps [.mem] s t ∧
        (Memory.read t.mem s.I.toNat).toNat = (s.reg x).toNat / 100 ∧
        (Memory.read t.mem (s.I.toNat + 1)).toNat = (s.reg x).toNat / 10 % 10 ∧
        (Memory.read t.mem (s.I.toNat + 2)).toNat = (s.reg x).toNat % 10 ∧
        ∀ a, a < s.I.toNat ∨ s.I.toNat + 2 < a → Memory.read t.mem a = Memory.read s.mem a) ∧
    (0xFFF < s.I.toNat + 2 → ∃ t, exec (.ldB x) s = .next t ∧ StopsWith .memoryOutOfRange (some 0x1000) s t)

/-- 42_index_memory.md R178: save stores `V[0]` to `V[x]` at `I` upward and, with `INDEX_ADVANCE`, adds `x`+1 to `I`; every
other byte is unchanged. Memory is canonical (`State.Inv`). -/
def Obligations.SaveStoresRegisterBlock : Prop :=
  ∀ (x : Nibble) (s : State), s.mem.wf →
    s.I.toNat + x.toNat + (if s.config.indexAdvance then 1 else 0) ≤ 0xFFF →
    decode (formatXnn 0xF#4 x 0x55#8) = .known (.save x) ∧
    ∃ t, exec (.save x) s = .next t ∧ Keeps [.mem, .index] s t ∧
      t.I.toNat = s.I.toNat + (if s.config.indexAdvance then x.toNat + 1 else 0) ∧
      (∀ k : Nibble, k.toNat ≤ x.toNat → Memory.read t.mem (s.I.toNat + k.toNat) = s.reg k) ∧
      ∀ a, a < s.I.toNat ∨ s.I.toNat + x.toNat < a → Memory.read t.mem a = Memory.read s.mem a

/-- 42_index_memory.md R180: load fills `V[0]` to `V[x]` from `I` upward, leaves the registers above `x`, and, with
`INDEX_ADVANCE`, adds `x`+1 to `I`. -/
def Obligations.LoadReadsRegisterBlock : Prop :=
  ∀ (x : Nibble) (s : State), s.I.toNat + x.toNat + (if s.config.indexAdvance then 1 else 0) ≤ 0xFFF →
    decode (formatXnn 0xF#4 x 0x65#8) = .known (.load x) ∧
    ∃ t, exec (.load x) s = .next t ∧ Keeps [.regs, .index] s t ∧
      t.I.toNat = s.I.toNat + (if s.config.indexAdvance then x.toNat + 1 else 0) ∧
      ∀ k : Nibble, t.reg k = if k.toNat ≤ x.toNat then Memory.read s.mem (s.I.toNat + k.toNat) else s.reg k

/-- 42_index_memory.md R178, R180; 60_exceptions.md R308: a block past 0xFFF stops with the first address outside, and one
that ends at 0xFFF stops with `INDEX_ADVANCE` at the index update (the spec's decisions D6 and D29). -/
def Obligations.BlockPastTopStops : Prop :=
  ∀ (x : Nibble) (s : State),
    (0xFFF < s.I.toNat + x.toNat →
      (∃ t, exec (.save x) s = .next t ∧ StopsWith .memoryOutOfRange (some 0x1000) s t) ∧
        ∃ t, exec (.load x) s = .next t ∧ StopsWith .memoryOutOfRange (some 0x1000) s t) ∧
    (s.I.toNat + x.toNat = 0xFFF ∧ s.config.indexAdvance = true →
      (∃ t, exec (.save x) s = .next t ∧ StopsWith .addressOverflow (some 0x1000) s t) ∧
        ∃ t, exec (.load x) s = .next t ∧ StopsWith .addressOverflow (some 0x1000) s t)

/-! ## Display -/

/-- 43_display.md R190: `CLS` turns every pixel off and presents the grid once, `V[0xF]` and all else unchanged; a failing
sink stops the run after the whole effect (60_exceptions.md R318). That the word decodes so for every `x` is the spec's decision
D5 (30_encoding.md R99), exactly one `Present` D23, the stop D16 (log 11). -/
def Obligations.ClearBlanksAndPresents : Prop :=
  ∀ (x : Nibble) (s : State), decode (formatXnn 0x0#4 x 0xE0#8) = .known .cls ∧
    ∃ t, exec .cls s = .next t ∧ (∀ row col, Framebuffer.pixel t.fb row col = false) ∧
      t.host = s.host.takeSink.2 ∧
      (s.host.takeSink.1 = .ok → t.out = s.out ++ [.present t.fb] ∧ Keeps [.fb, .out, .host] s t) ∧
      (s.host.takeSink.1 = .failure →
        t.out = s.out ++ [.present t.fb, .hostFailure .renderSink] ∧ t.phase = .stopped ∧ t.keyWait = none ∧
          Keeps [.fb, .out, .host, .phase, .keyWait] s t)

/-- 43_display.md R192: `DRW` reads `n` bytes at `I`, blits them at the wrapped origin, puts the collision bit into `V[0xF]`
and presents the new grid once; a failing sink stops the run after the whole effect (60_exceptions.md R318). -/
def Obligations.DrawBlitsAndPresents : Prop :=
  ∀ (x y n : Nibble) (s : State), s.I.toNat + n.toNat ≤ 0x1000 →
    decode (formatXyn 0xD#4 x y n) = .known (.drw x y n) ∧
    ∃ t drawn, exec (.drw x y n) s = .next t ∧
      drawn = blit s.fb ((s.reg x).toNat % 64) ((s.reg y).toNat % 32)
        ((List.range n.toNat).map (fun r => Memory.read s.mem (s.I.toNat + r))) ∧
      t.fb = drawn.1 ∧ (∀ k, (t.reg k).toNat = if k = 0xF#4 then (if drawn.2 then 1 else 0) else (s.reg k).toNat) ∧
      t.host = s.host.takeSink.2 ∧
      (s.host.takeSink.1 = .ok → t.out = s.out ++ [.present t.fb] ∧ Keeps [.fb, .regs, .out, .host] s t) ∧
      (s.host.takeSink.1 = .failure →
        t.out = s.out ++ [.present t.fb, .hostFailure .renderSink] ∧ t.phase = .stopped ∧ t.keyWait = none ∧
          Keeps [.fb, .regs, .out, .host, .phase, .keyWait] s t)

/-- 43_display.md R192: a sprite row above 0xFFF is fatal, clipped or not (the spec's decision D7). -/
def Obligations.DrawPastTopStops : Prop :=
  ∀ (x y n : Nibble) (s : State), 0x1000 < s.I.toNat + n.toNat →
    ∃ t, exec (.drw x y n) s = .next t ∧ StopsWith .memoryOutOfRange (some 0x1000) s t

/-- 43_display.md R194: the blit, pixel by pixel, and its collision bit: set exactly when an in-bounds 1 bit of the sprite
meets a pixel that was on (the bit order is the spec's decision D10). -/
def Obligations.BlitXorsInBoundsPixels : Prop :=
  ∀ (fb : Framebuffer) (ox oy : Nat) (sprite : List Byte),
    (∀ row col, row < 32 → col < 64 →
      Framebuffer.pixel (blit fb ox oy sprite).1 row col =
        (Framebuffer.pixel fb row col ^^
          (decide (oy ≤ row ∧ row < oy + sprite.length ∧ ox ≤ col ∧ col < ox + 8) &&
            (sprite.getD (row - oy) 0x00#8).getLsbD (7 - (col - ox))))) ∧
    ((blit fb ox oy sprite).2 = true ↔
      ∃ r c, r < sprite.length ∧ c < 8 ∧ ox + c ≤ 63 ∧ oy + r ≤ 31 ∧
        (sprite.getD r 0x00#8).getLsbD (7 - c) = true ∧ Framebuffer.pixel fb (oy + r) (ox + c) = true)

/-- 43_display.md R196 (a): drawing the same sprite twice at the same origin restores the framebuffer; after a first draw with
no collision the second collides exactly when the sprite has a 1 bit in bounds. (R196 (a) says so of every second draw; by
R194 it fails where the first draw erased every pixel it met, so the statement keeps the case the derivation covers.) -/
def Obligations.BlitTwiceRestores : Prop :=
  ∀ (fb : Framebuffer) (ox oy : Nat) (sprite : List Byte),
    (blit (blit fb ox oy sprite).1 ox oy sprite).1 = fb ∧
      ((blit fb ox oy sprite).2 = false →
        ((blit (blit fb ox oy sprite).1 ox oy sprite).2 = true ↔
          ∃ r c, r < sprite.length ∧ c < 8 ∧ ox + c ≤ 63 ∧ oy + r ≤ 31 ∧
            (sprite.getD r 0x00#8).getLsbD (7 - c) = true))

/-! ## Keys -/

/-- 50_cycle.md R254: the key code of a character. -/
def Obligations.CharactersMapToKeyCodes : Prop :=
  (∀ d : Nat, d < 10 → keyOfChar (Char.ofNat ('0'.toNat + d)) = .key (BitVec.ofNat 4 d)) ∧
    (∀ d : Nat, d < 6 → keyOfChar (Char.ofNat ('a'.toNat + d)) = .key (BitVec.ofNat 4 (10 + d)) ∧
      keyOfChar (Char.ofNat ('A'.toNat + d)) = .key (BitVec.ofNat 4 (10 + d))) ∧
    ∀ c : Char, ¬ ('0' ≤ c ∧ c ≤ '9') → ¬ ('a' ≤ c ∧ c ≤ 'f') → ¬ ('A' ≤ c ∧ c ≤ 'F') → keyOfChar c = .noKey

/-- 44_keys_timers.md R210, R211, R212: on one answer, `SKP` skips exactly when it is the key whose code is all of `V[x]`
and `SKNP` exactly when it is not (that the queries are such skips is decision D4 and general knowledge G10; the 8-bit
comparison is D24). -/
def Obligations.KeySkipsCompareAnswer : Prop :=
  ∀ (x : Nibble) (s : State) (ans : KeyAnswer) (p : Bool), answerOf s.host.takeKey.1 = some ans →
    s.pc.toNat + 2 ≤ 0xFFF → (p = true ↔ ∃ k, ans = .key k ∧ k.toNat = (s.reg x).toNat) →
    (decode (formatXnn 0xE#4 x 0x9E#8) = .known (.skp x) ∧ ∃ t, exec (.skp x) s = .next t ∧
      t.pc.toNat = s.pc.toNat + (if p then 2 else 0) ∧ t.keyWait = none ∧ t.host = s.host.takeKey.2 ∧
      Keeps [.pc, .keyWait, .host] s t) ∧
    (decode (formatXnn 0xE#4 x 0xA1#8) = .known (.sknp x) ∧ ∃ t, exec (.sknp x) s = .next t ∧
      t.pc.toNat = s.pc.toNat + (if p then 0 else 2) ∧ t.keyWait = none ∧ t.host = s.host.takeKey.2 ∧
      Keeps [.pc, .keyWait, .host] s t)

/-- 44_keys_timers.md R210, R211; 40_control.md R125: at the top of memory a key skip that is taken is fatal, one that is not
taken changes nothing but the request answered (the spec's decisions D4, D6 and D24). -/
def Obligations.TakenKeySkipPastTopStops : Prop :=
  ∀ (x : Nibble) (s : State) (ans : KeyAnswer) (p : Bool), answerOf s.host.takeKey.1 = some ans →
    0xFFF < s.pc.toNat + 2 → (p = true ↔ ∃ k, ans = .key k ∧ k.toNat = (s.reg x).toNat) →
    if p then
      (∃ t, exec (.skp x) s = .next t ∧ StopsWith .addressOverflow (some (s.pc.toNat + 2)) s t) ∧
        ∃ t, exec (.sknp x) s = .next t ∧ t.keyWait = none ∧ Keeps [.keyWait, .host] s t
    else
      (∃ t, exec (.skp x) s = .next t ∧ t.keyWait = none ∧ Keeps [.keyWait, .host] s t) ∧
        ∃ t, exec (.sknp x) s = .next t ∧ StopsWith .addressOverflow (some (s.pc.toNat + 2)) s t

/-- 44_keys_timers.md R214: `LD Vx, K` puts the key code into `V[x]`, and on no key leaves it and goes on, without a retry
(decision D3). -/
def Obligations.KeyReadBindsOnlyAKey : Prop :=
  ∀ (x : Nibble) (s : State) (ans : KeyAnswer), answerOf s.host.takeKey.1 = some ans →
    decode (formatXnn 0xF#4 x 0x0A#8) = .known (.ldVxK x) ∧ ∃ t, exec (.ldVxK x) s = .next t ∧
      (∀ k, ans = .key k → (t.reg x).toNat = k.toNat) ∧ (ans = .noKey → t.reg x = s.reg x) ∧
      (∀ j, j ≠ x → t.reg j = s.reg j) ∧ t.keyWait = none ∧ t.host = s.host.takeKey.2 ∧
      Keeps [.regs, .keyWait, .host] s t

/-- 60_exceptions.md R318: a failing key collaborator stops the run with the state as it stood, `fatal` unset, the failure
told to the caller. -/
def Obligations.KeyFailureStopsRun : Prop :=
  ∀ (x : Nibble) (s : State), s.host.takeKey.1 = .failure →
    ∀ i, i = .skp x ∨ i = .sknp x ∨ i = .ldVxK x → ∃ t, exec i s = .next t ∧
      t.phase = .stopped ∧ t.fatal = s.fatal ∧ t.out = s.out ++ [.hostFailure .keyRead] ∧ t.keyWait = none ∧
      Keeps [.phase, .out, .keyWait, .host] s t

/-- 10_state.md R48 (c), 44_keys_timers.md R214, 60_exceptions.md R334: while no answer has come the instruction is suspended
with nothing of it done; a later step asks again, exactly as the instruction itself would, and the timers go on meanwhile
(the request held in State is log 5). -/
def Obligations.UnansweredKeyRequestWaits : Prop :=
  ∀ (x : Nibble) (s : State), s.phase = .running →
    ∀ i r, (i, r) ∈ [(Instr.skp x, KeyRequest.skipIfPressed x), (.sknp x, .skipIfNotPressed x), (.ldVxK x, .bind x)] →
      (s.host.takeKey.1 = .notYet → ∃ t, exec i s = .next t ∧ t.keyWait = some r ∧ Keeps [.keyWait, .host] s t) ∧
      (s.keyWait = some r → ∃ t, exec i { s with keyWait := none } = .next t ∧
        step s = .next (State.tick^[t.host.takeTicks.1] { t with host := t.host.takeTicks.2 }))
end

