-- ==== Sys2Proof/Laws/Display.lean ====
section
/-! SUPPORT. Sys2Proof/Laws/Display.lean: a pixel read after a pixel written, and after a clear. -/

namespace Sys2Proof.Machine

theorem Framebuffer.pixel_clear (row col : Nat) : Framebuffer.pixel Framebuffer.clear row col = false := by
  unfold Framebuffer.pixel Framebuffer.clear
  split <;> simp

/-- A written pixel inside the grid reads as written; every other pixel reads as before. -/
theorem Framebuffer.pixel_setPixel (fb : Framebuffer) (row col r c : Nat) (b : Bool) :
    Framebuffer.pixel (Framebuffer.setPixel fb row col b) r c =
      if r = row ∧ c = col ∧ row < 32 ∧ col < 64 then b else Framebuffer.pixel fb r c := by
  unfold Framebuffer.setPixel
  by_cases h : row < 32 ∧ col < 64
  · rw [dif_pos h]
    unfold Framebuffer.pixel
    by_cases h' : r < 32 ∧ c < 64
    · rw [dif_pos h', dif_pos h']
      by_cases hr : row = r
      · subst hr
        by_cases hc : col = c
        · subst hc; simp [h]
        · simp [hc, Ne.symm hc]
      · simp [hr, Ne.symm hr]
    · rw [dif_neg h', dif_neg h', if_neg]
      rintro ⟨rfl, rfl, h1, h2⟩
      exact h' ⟨h1, h2⟩
  · rw [dif_neg h, if_neg]
    rintro ⟨-, -, h1, h2⟩
    exact h ⟨h1, h2⟩

/-- Two framebuffers with the same pixels are the same. -/
theorem Framebuffer.ext_pixel (f g : Framebuffer)
    (h : ∀ row col, row < 32 → col < 64 → Framebuffer.pixel f row col = Framebuffer.pixel g row col) : f = g := by
  apply Vector.ext
  intro row hrow
  apply Vector.ext
  intro col hcol
  have := h row col hrow hcol
  simpa [Framebuffer.pixel, hrow, hcol] using this

end Sys2Proof.Machine
end

