-- ==== Sys2Proof/Laws/Encoding.lean ====
section
/-! SUPPORT. Sys2Proof/Laws/Encoding.lean: the fields of a word built by format (30_encoding.md R91, R92), and a word masked
format by format. -/

namespace Sys2Proof

theorem formatNnn_op (op : Nibble) (nnn : Addr) : (fieldsOf (formatNnn op nnn)).op = op :=
  (BitVec.extractLsb'_append_eq_of_le (xhi := op) (xlo := nnn) (by decide)).trans BitVec.extractLsb'_eq_self

theorem formatNnn_nnn (op : Nibble) (nnn : Addr) : (fieldsOf (formatNnn op nnn)).nnn = nnn :=
  BitVec.extractLsb'_append_eq_right (a := op) (b := nnn)

theorem formatXnn_op (op x : Nibble) (nn : Byte) : (fieldsOf (formatXnn op x nn)).op = op :=
  (BitVec.extractLsb'_append_eq_of_le (xhi := op ++ x) (xlo := nn) (by decide)).trans
   ((BitVec.extractLsb'_append_eq_of_le (xhi := op) (xlo := x) (by decide)).trans BitVec.extractLsb'_eq_self)

theorem formatXnn_x (op x : Nibble) (nn : Byte) : (fieldsOf (formatXnn op x nn)).x = x :=
  (BitVec.extractLsb'_append_eq_of_le (xhi := op ++ x) (xlo := nn) (by decide)).trans
   (BitVec.extractLsb'_append_eq_right (a := op) (b := x))

theorem formatXnn_nn (op x : Nibble) (nn : Byte) : (fieldsOf (formatXnn op x nn)).nn = nn :=
   (BitVec.extractLsb'_append_eq_right (a := op ++ x) (b := nn))

theorem formatXyn_op (op x y n : Nibble) : (fieldsOf (formatXyn op x y n)).op = op :=
  (BitVec.extractLsb'_append_eq_of_le (xhi := op ++ x ++ y) (xlo := n) (by decide)).trans
  ((BitVec.extractLsb'_append_eq_of_le (xhi := op ++ x) (xlo := y) (by decide)).trans
   ((BitVec.extractLsb'_append_eq_of_le (xhi := op) (xlo := x) (by decide)).trans BitVec.extractLsb'_eq_self))

theorem formatXyn_x (op x y n : Nibble) : (fieldsOf (formatXyn op x y n)).x = x :=
  (BitVec.extractLsb'_append_eq_of_le (xhi := op ++ x ++ y) (xlo := n) (by decide)).trans
  ((BitVec.extractLsb'_append_eq_of_le (xhi := op ++ x) (xlo := y) (by decide)).trans
   (BitVec.extractLsb'_append_eq_right (a := op) (b := x)))

theorem formatXyn_y (op x y n : Nibble) : (fieldsOf (formatXyn op x y n)).y = y :=
  (BitVec.extractLsb'_append_eq_of_le (xhi := op ++ x ++ y) (xlo := n) (by decide)).trans
   (BitVec.extractLsb'_append_eq_right (a := op ++ x) (b := y))

theorem formatXyn_n (op x y n : Nibble) : (fieldsOf (formatXyn op x y n)).n = n :=
   (BitVec.extractLsb'_append_eq_right (a := op ++ x ++ y) (b := n))

theorem formatNnn_and (o p : Nibble) (a b : Addr) : formatNnn o a &&& formatNnn p b = formatNnn (o &&& p) (a &&& b) :=
  BitVec.and_append

theorem formatXnn_and (o p x y : Nibble) (a b : Byte) : formatXnn o x a &&& formatXnn p y b = formatXnn (o &&& p) (x &&& y) (a &&& b) :=
  (BitVec.and_append (x₁ := o ++ x) (x₂ := p ++ y) (y₁ := a) (y₂ := b)).trans (congrArg (fun z : BitVec 8 => (z ++ (a &&& b) : Word)) BitVec.and_append)

theorem formatXyn_and (o p x y a b m n: Nibble) : formatXyn o x a m &&& formatXyn p y b n = formatXyn (o &&& p) (x &&& y) (a &&& b) (m &&& n) :=
  (BitVec.and_append (x₁ := o ++ x ++ a) (x₂ := p ++ y ++ b) (y₁ := m) (y₂ := n)).trans (congrArg (fun z : BitVec 12 => (z ++ (m &&& n) : Word))
  ((BitVec.and_append (x₁ := o ++ x) (x₂ := p ++ y) (y₁ := a) (y₂ := b)).trans (congrArg (fun z : BitVec 8 => (z ++ (a &&& b) : BitVec 12)) BitVec.and_append)))

end Sys2Proof
end

