-- ==== Sys2Proof/Laws/Memory.lean ====
section
/-! SUPPORT. Sys2Proof/Laws/Memory.lean: reading after a write, and that every operation on Memory keeps the canonical form. -/

namespace Sys2Proof.Machine

@[simp] theorem Memory.read_nil (a : Nat) : Memory.read [] a = Memory.unlisted a := rfl

theorem Memory.wf_nil : Memory.wf [] := ⟨List.Pairwise.nil, fun _ h => absurd h List.not_mem_nil⟩

/-- An address below every listed one reads as unlisted. -/
theorem Memory.read_of_lt (m : Memory) (a : Nat) (h : ∀ c ∈ m, a < c.1) : Memory.read m a = Memory.unlisted a := by
  induction m with
  | nil => rfl
  | cons c rest ih =>
    obtain ⟨k, b⟩ := c
    have hk : a < k := h (k, b) (by simp)
    simp only [Memory.read]
    rw [if_neg (by omega), ih (fun d hd => h d (by simp [hd]))]

/-- A read after a write gives the byte written at its address and the old byte elsewhere. -/
theorem Memory.read_write (m : Memory) (hm : m.wf) (a b : Nat) (v : Byte) :
    Memory.read (Memory.write m a v) b = if b = a then v else Memory.read m b := by
  induction m with
  | nil =>
    simp only [Memory.write]
    split <;> rename_i hv
    · by_cases hb : b = a <;> simp [hb, hv]
    · by_cases hb : b = a <;> simp [Memory.read, hb]
  | cons c rest ih =>
    obtain ⟨k, w⟩ := c
    obtain ⟨hsort, hcells⟩ := hm
    rw [List.pairwise_cons] at hsort
    have hrest : Memory.wf rest := ⟨hsort.2, fun d hd => hcells d (by simp [hd])⟩
    simp only [Memory.write]
    by_cases hak : a < k
    · rw [if_pos hak]
      have hlow : Memory.read rest a = Memory.unlisted a :=
        Memory.read_of_lt rest a (fun d hd => Nat.lt_trans hak (hsort.1 d hd))
      split <;> rename_i hv
      · by_cases hb : b = a
        · subst hb; simp only [Memory.read, if_true]; rw [if_neg (by omega), hlow, hv]
        · simp [hb]
      · by_cases hb : b = a <;> simp [Memory.read, hb]
    · rw [if_neg hak]
      by_cases hae : a = k
      · subst hae
        rw [if_pos rfl]
        split <;> rename_i hv
        · by_cases hb : b = a
          · subst hb; rw [if_pos rfl, Memory.read_of_lt rest b hsort.1, hv]
          · simp [Memory.read, hb]
        · by_cases hb : b = a <;> simp [Memory.read, hb]
      · rw [if_neg hae]
        simp only [Memory.read, ih hrest]
        by_cases hbk : b = k
        · subst hbk; rw [if_pos rfl, if_neg (by omega), if_pos rfl]
        · simp [hbk]

/-- Every cell of a written memory is the written cell or an old one. -/
theorem Memory.mem_write (m : Memory) (a : Nat) (v : Byte) (c : Host.Cell) (h : c ∈ Memory.write m a v) :
    c ∈ m ∨ (c = (a, v) ∧ v ≠ Memory.unlisted a) := by
  induction m with
  | nil =>
    simp only [Memory.write] at h
    split at h
    · simp at h
    · simp_all
  | cons d rest ih =>
    obtain ⟨k, w⟩ := d
    simp only [Memory.write] at h
    split at h
    · split at h
      · exact .inl h
      · rcases List.mem_cons.mp h with h | h
        · exact .inr ⟨h, by assumption⟩
        · exact .inl h
    · split at h
      · split at h
        · exact .inl (List.mem_cons_of_mem _ h)
        · rcases List.mem_cons.mp h with h | h
          · exact .inr ⟨h, by assumption⟩
          · exact .inl (List.mem_cons_of_mem _ h)
      · rcases List.mem_cons.mp h with h | h
        · exact .inl (by simp [h])
        · exact (ih h).imp (List.mem_cons_of_mem _) id

/-- A write inside the address space keeps the canonical form. -/
theorem Memory.wf_write (m : Memory) (hm : m.wf) (a : Nat) (ha : a ≤ maxAddr) (v : Byte) :
    (Memory.write m a v).wf := by
  refine ⟨?_, fun c hc => ?_⟩
  · obtain ⟨hsort, -⟩ := hm
    induction m with
    | nil => simp only [Memory.write]; split <;> simp
    | cons d rest ih =>
      obtain ⟨k, w⟩ := d
      rw [List.pairwise_cons] at hsort
      simp only [Memory.write]
      split <;> rename_i hak
      · split
        · exact List.pairwise_cons.mpr hsort
        · refine List.pairwise_cons.mpr ⟨fun c hc => ?_, List.pairwise_cons.mpr hsort⟩
          rcases List.mem_cons.mp hc with rfl | hc
          · exact hak
          · exact Nat.lt_trans hak (hsort.1 c hc)
      · split <;> rename_i hae
        · subst hae
          split
          · exact hsort.2
          · exact List.pairwise_cons.mpr ⟨hsort.1, hsort.2⟩
        · refine List.pairwise_cons.mpr ⟨fun c hc => ?_, ih hsort.2⟩
          rcases Memory.mem_write rest a v c hc with hc | ⟨rfl, -⟩
          · exact hsort.1 c hc
          · show k < a; omega
  · rcases Memory.mem_write m a v c hc with hc | ⟨rfl, hv⟩
    · exact hm.2 c hc
    · exact ⟨ha, hv⟩

/-- A run of writes inside the address space keeps the canonical form. -/
theorem Memory.wf_writeRun (bs : List Byte) (m : Memory) (hm : m.wf) (a : Nat) (ha : a + bs.length ≤ memSize) :
    (Memory.writeRun m a bs).wf := by
  induction bs generalizing m a with
  | nil => exact hm
  | cons b bs ih =>
    simp only [List.length_cons] at ha
    exact ih _ (Memory.wf_write m hm a (by simp only [maxAddr, memSize] at *; omega) b) (a + 1) (by omega)

/-- What a run of writes leaves at each address. -/
theorem Memory.read_writeRun (bs : List Byte) (m : Memory) (hm : m.wf) (a b : Nat) (ha : a + bs.length ≤ memSize) :
    Memory.read (Memory.writeRun m a bs) b =
      if h : a ≤ b ∧ b < a + bs.length then bs[b - a]'(by omega) else Memory.read m b := by
  induction bs generalizing m a with
  | nil =>
    simp only [Memory.writeRun, List.length_nil, Nat.add_zero]
    rw [dif_neg (by omega)]
  | cons v bs ih =>
    simp only [List.length_cons] at ha ⊢
    have hlow : a ≤ maxAddr := by simp only [maxAddr, memSize] at *; omega
    rw [Memory.writeRun, ih _ (Memory.wf_write m hm a hlow v) (a + 1) (by omega), Memory.read_write m hm]
    by_cases h1 : a + 1 ≤ b ∧ b < a + 1 + bs.length
    · rw [dif_pos h1, dif_pos (by omega)]
      have : b - a = (b - (a + 1)) + 1 := by omega
      simp [this]
    · rw [dif_neg h1]
      by_cases h2 : b = a
      · subst h2
        rw [if_pos rfl, dif_pos (by omega)]
        simp
      · rw [if_neg h2, dif_neg (by omega)]

theorem Memory.wf_ofBytes (bs : List Byte) : (Memory.ofBytes bs).wf :=
  Memory.wf_writeRun _ _ Memory.wf_nil 0 (by simp [List.length_take])

/-- A checked run of writes inside the address space is the unchecked one. -/
theorem writeBlock_ok (bs : List Byte) (m : Memory) (a : Nat) (h : a + bs.length ≤ memSize) :
    writeBlock m a bs = .ok (Memory.writeRun m a bs) := by
  induction bs generalizing m a with
  | nil => rfl
  | cons b bs ih =>
    simp only [List.length_cons] at h
    have hlow : a ≤ maxAddr := by simp only [maxAddr, memSize] at *; omega
    simp only [writeBlock, writeByte, if_pos hlow, Memory.writeRun]
    exact ih _ _ (by omega)

/-- A checked run of writes that leaves the address space raises the first offending address. -/
theorem writeBlock_error (bs : List Byte) (m : Memory) (a : Nat) (ha : a ≤ memSize) (h : memSize < a + bs.length) :
    writeBlock m a bs = .error ⟨.memoryOutOfRange, some memSize⟩ := by
  induction bs generalizing m a with
  | nil => simp only [List.length_nil] at h; omega
  | cons b bs ih =>
    simp only [List.length_cons] at h
    by_cases hlow : a ≤ maxAddr
    · simp only [writeBlock, writeByte, if_pos hlow]
      exact ih _ _ (by simp only [maxAddr, memSize] at *; omega) (by omega)
    · have : a = memSize := by simp only [maxAddr, memSize] at *; omega
      subst this
      simp [writeBlock, writeByte, hlow]

/-- A block read inside the address space answers the bytes there, lowest address first. -/
theorem readBlock_ok (k : Nat) (m : Memory) (a : Nat) (h : a + k ≤ memSize) :
    readBlock m a k = .ok ((List.range k).map (fun j => Memory.read m (a + j))) := by
  induction k generalizing a with
  | zero => rfl
  | succ k ih =>
    have hlow : a ≤ maxAddr := by simp only [maxAddr, memSize] at *; omega
    simp only [readBlock, readByte, if_pos hlow, ih (a + 1) (by omega), List.range_succ_eq_map, List.map_cons,
      List.map_map, Nat.add_zero]
    congr 2
    apply List.map_congr_left
    intro j _
    simp only [Function.comp_apply]
    congr 1
    omega

/-- A block read that leaves the address space raises the first offending address. -/
theorem readBlock_error (k : Nat) (m : Memory) (a : Nat) (ha : a ≤ memSize) (h : memSize < a + k) :
    readBlock m a k = .error ⟨.memoryOutOfRange, some memSize⟩ := by
  induction k generalizing a with
  | zero => omega
  | succ k ih =>
    by_cases hlow : a ≤ maxAddr
    · simp only [readBlock, readByte, if_pos hlow, ih (a + 1) (by simp only [maxAddr, memSize] at *; omega) (by omega)]
    · have : a = memSize := by simp only [maxAddr, memSize] at *; omega
      subst this
      simp [readBlock, readByte, hlow]

/-- A fetch inside the address space answers the two bytes, high byte first (20_memory.md R68). -/
theorem readWord_ok (m : Memory) (a : Nat) (h : a + 1 ≤ maxAddr) :
    readWord m a = .ok (wordOfBytes (Memory.read m a) (Memory.read m (a + 1))) := by
  simp [readWord, readByte, h, Nat.le_of_succ_le h, wordOfBytes]

theorem chk12_ok (v : Nat) (h : v ≤ maxAddr) : chk12 v = .ok (BitVec.ofNat 12 v) := if_pos h

theorem chk12_error (v : Nat) (h : maxAddr < v) : chk12 v = .error ⟨.addressOverflow, some v⟩ :=
  if_neg (by omega)

end Sys2Proof.Machine
end

