-- ==== Sys2Proof/Laws/State.lean ====
section
/-! SUPPORT. Sys2Proof/Laws/State.lean: for each named update of the state, what every field is after it; registers read after
a write; the parts of a frame. -/

namespace Sys2Proof.Machine

/-! `State.setReg` -/

@[simp] theorem State.setReg_mem (s : State) (x : Nibble) (v : Byte) : (s.setReg x v).mem = s.mem := rfl
@[simp] theorem State.setReg_pc (s : State) (x : Nibble) (v : Byte) : (s.setReg x v).pc = s.pc := rfl
@[simp] theorem State.setReg_I (s : State) (x : Nibble) (v : Byte) : (s.setReg x v).I = s.I := rfl
@[simp] theorem State.setReg_stack (s : State) (x : Nibble) (v : Byte) : (s.setReg x v).stack = s.stack := rfl
@[simp] theorem State.setReg_fb (s : State) (x : Nibble) (v : Byte) : (s.setReg x v).fb = s.fb := rfl
@[simp] theorem State.setReg_DT (s : State) (x : Nibble) (v : Byte) : (s.setReg x v).DT = s.DT := rfl
@[simp] theorem State.setReg_ST (s : State) (x : Nibble) (v : Byte) : (s.setReg x v).ST = s.ST := rfl
@[simp] theorem State.setReg_started (s : State) (x : Nibble) (v : Byte) : (s.setReg x v).started = s.started := rfl
@[simp] theorem State.setReg_fatal (s : State) (x : Nibble) (v : Byte) : (s.setReg x v).fatal = s.fatal := rfl
@[simp] theorem State.setReg_phase (s : State) (x : Nibble) (v : Byte) : (s.setReg x v).phase = s.phase := rfl
@[simp] theorem State.setReg_keyWait (s : State) (x : Nibble) (v : Byte) : (s.setReg x v).keyWait = s.keyWait := rfl
@[simp] theorem State.setReg_fetchAt (s : State) (x : Nibble) (v : Byte) : (s.setReg x v).fetchAt = s.fetchAt := rfl
@[simp] theorem State.setReg_fetchWord (s : State) (x : Nibble) (v : Byte) : (s.setReg x v).fetchWord = s.fetchWord := rfl
@[simp] theorem State.setReg_config (s : State) (x : Nibble) (v : Byte) : (s.setReg x v).config = s.config := rfl
@[simp] theorem State.setReg_out (s : State) (x : Nibble) (v : Byte) : (s.setReg x v).out = s.out := rfl
@[simp] theorem State.setReg_host (s : State) (x : Nibble) (v : Byte) : (s.setReg x v).host = s.host := rfl

/-! `State.tick` -/

@[simp] theorem State.tick_mem (s : State) : (s.tick).mem = s.mem := rfl
@[simp] theorem State.tick_V (s : State) : (s.tick).V = s.V := rfl
@[simp] theorem State.tick_pc (s : State) : (s.tick).pc = s.pc := rfl
@[simp] theorem State.tick_I (s : State) : (s.tick).I = s.I := rfl
@[simp] theorem State.tick_stack (s : State) : (s.tick).stack = s.stack := rfl
@[simp] theorem State.tick_fb (s : State) : (s.tick).fb = s.fb := rfl
@[simp] theorem State.tick_DT (s : State) : (s.tick).DT = if s.ticking then decrement s.DT else s.DT := rfl
@[simp] theorem State.tick_ST (s : State) : (s.tick).ST = if s.ticking then decrement s.ST else s.ST := rfl
@[simp] theorem State.tick_started (s : State) : (s.tick).started = s.started := rfl
@[simp] theorem State.tick_fatal (s : State) : (s.tick).fatal = s.fatal := rfl
@[simp] theorem State.tick_phase (s : State) : (s.tick).phase = s.phase := rfl
@[simp] theorem State.tick_keyWait (s : State) : (s.tick).keyWait = s.keyWait := rfl
@[simp] theorem State.tick_fetchAt (s : State) : (s.tick).fetchAt = s.fetchAt := rfl
@[simp] theorem State.tick_fetchWord (s : State) : (s.tick).fetchWord = s.fetchWord := rfl
@[simp] theorem State.tick_config (s : State) : (s.tick).config = s.config := rfl
@[simp] theorem State.tick_out (s : State) : (s.tick).out = s.out := rfl
@[simp] theorem State.tick_host (s : State) : (s.tick).host = s.host := rfl

/-! `State.decay` -/

@[simp] theorem State.decay_mem (s : State) (n : Nat) : (s.decay n).mem = s.mem := rfl
@[simp] theorem State.decay_V (s : State) (n : Nat) : (s.decay n).V = s.V := rfl
@[simp] theorem State.decay_pc (s : State) (n : Nat) : (s.decay n).pc = s.pc := rfl
@[simp] theorem State.decay_I (s : State) (n : Nat) : (s.decay n).I = s.I := rfl
@[simp] theorem State.decay_stack (s : State) (n : Nat) : (s.decay n).stack = s.stack := rfl
@[simp] theorem State.decay_fb (s : State) (n : Nat) : (s.decay n).fb = s.fb := rfl
@[simp] theorem State.decay_DT (s : State) (n : Nat) : (s.decay n).DT = if s.ticking then countdown s.DT n else s.DT := rfl
@[simp] theorem State.decay_ST (s : State) (n : Nat) : (s.decay n).ST = if s.ticking then countdown s.ST n else s.ST := rfl
@[simp] theorem State.decay_started (s : State) (n : Nat) : (s.decay n).started = s.started := rfl
@[simp] theorem State.decay_fatal (s : State) (n : Nat) : (s.decay n).fatal = s.fatal := rfl
@[simp] theorem State.decay_phase (s : State) (n : Nat) : (s.decay n).phase = s.phase := rfl
@[simp] theorem State.decay_keyWait (s : State) (n : Nat) : (s.decay n).keyWait = s.keyWait := rfl
@[simp] theorem State.decay_fetchAt (s : State) (n : Nat) : (s.decay n).fetchAt = s.fetchAt := rfl
@[simp] theorem State.decay_fetchWord (s : State) (n : Nat) : (s.decay n).fetchWord = s.fetchWord := rfl
@[simp] theorem State.decay_config (s : State) (n : Nat) : (s.decay n).config = s.config := rfl
@[simp] theorem State.decay_out (s : State) (n : Nat) : (s.decay n).out = s.out := rfl
@[simp] theorem State.decay_host (s : State) (n : Nat) : (s.decay n).host = s.host := rfl

/-! `State.timerPhase` -/

@[simp] theorem State.timerPhase_mem (s : State) : (s.timerPhase).mem = s.mem := rfl
@[simp] theorem State.timerPhase_V (s : State) : (s.timerPhase).V = s.V := rfl
@[simp] theorem State.timerPhase_pc (s : State) : (s.timerPhase).pc = s.pc := rfl
@[simp] theorem State.timerPhase_I (s : State) : (s.timerPhase).I = s.I := rfl
@[simp] theorem State.timerPhase_stack (s : State) : (s.timerPhase).stack = s.stack := rfl
@[simp] theorem State.timerPhase_fb (s : State) : (s.timerPhase).fb = s.fb := rfl
@[simp] theorem State.timerPhase_DT (s : State) : (s.timerPhase).DT = if s.ticking then countdown s.DT s.host.takeTicks.1 else s.DT := rfl
@[simp] theorem State.timerPhase_ST (s : State) : (s.timerPhase).ST = if s.ticking then countdown s.ST s.host.takeTicks.1 else s.ST := rfl
@[simp] theorem State.timerPhase_started (s : State) : (s.timerPhase).started = s.started := rfl
@[simp] theorem State.timerPhase_fatal (s : State) : (s.timerPhase).fatal = s.fatal := rfl
@[simp] theorem State.timerPhase_phase (s : State) : (s.timerPhase).phase = s.phase := rfl
@[simp] theorem State.timerPhase_keyWait (s : State) : (s.timerPhase).keyWait = s.keyWait := rfl
@[simp] theorem State.timerPhase_fetchAt (s : State) : (s.timerPhase).fetchAt = s.fetchAt := rfl
@[simp] theorem State.timerPhase_fetchWord (s : State) : (s.timerPhase).fetchWord = s.fetchWord := rfl
@[simp] theorem State.timerPhase_config (s : State) : (s.timerPhase).config = s.config := rfl
@[simp] theorem State.timerPhase_out (s : State) : (s.timerPhase).out = s.out := rfl
@[simp] theorem State.timerPhase_host (s : State) : (s.timerPhase).host = s.host.takeTicks.2 := rfl

/-! `State.hostFailure` -/

@[simp] theorem State.hostFailure_mem (s : State) (k : HostFailureKind) : (s.hostFailure k).mem = s.mem := rfl
@[simp] theorem State.hostFailure_V (s : State) (k : HostFailureKind) : (s.hostFailure k).V = s.V := rfl
@[simp] theorem State.hostFailure_pc (s : State) (k : HostFailureKind) : (s.hostFailure k).pc = s.pc := rfl
@[simp] theorem State.hostFailure_I (s : State) (k : HostFailureKind) : (s.hostFailure k).I = s.I := rfl
@[simp] theorem State.hostFailure_stack (s : State) (k : HostFailureKind) : (s.hostFailure k).stack = s.stack := rfl
@[simp] theorem State.hostFailure_fb (s : State) (k : HostFailureKind) : (s.hostFailure k).fb = s.fb := rfl
@[simp] theorem State.hostFailure_DT (s : State) (k : HostFailureKind) : (s.hostFailure k).DT = s.DT := rfl
@[simp] theorem State.hostFailure_ST (s : State) (k : HostFailureKind) : (s.hostFailure k).ST = s.ST := rfl
@[simp] theorem State.hostFailure_started (s : State) (k : HostFailureKind) : (s.hostFailure k).started = s.started := rfl
@[simp] theorem State.hostFailure_fatal (s : State) (k : HostFailureKind) : (s.hostFailure k).fatal = s.fatal := rfl
@[simp] theorem State.hostFailure_phase (s : State) (k : HostFailureKind) : (s.hostFailure k).phase = .stopped := rfl
@[simp] theorem State.hostFailure_keyWait (s : State) (k : HostFailureKind) : (s.hostFailure k).keyWait = none := rfl
@[simp] theorem State.hostFailure_fetchAt (s : State) (k : HostFailureKind) : (s.hostFailure k).fetchAt = s.fetchAt := rfl
@[simp] theorem State.hostFailure_fetchWord (s : State) (k : HostFailureKind) : (s.hostFailure k).fetchWord = s.fetchWord := rfl
@[simp] theorem State.hostFailure_config (s : State) (k : HostFailureKind) : (s.hostFailure k).config = s.config := rfl
@[simp] theorem State.hostFailure_out (s : State) (k : HostFailureKind) : (s.hostFailure k).out = s.out ++ [.hostFailure k] := rfl
@[simp] theorem State.hostFailure_host (s : State) (k : HostFailureKind) : (s.hostFailure k).host = s.host := rfl

/-! `State.runStart` -/

@[simp] theorem State.runStart_mem (s : State) : (s.runStart).mem = s.mem := rfl
@[simp] theorem State.runStart_V (s : State) : (s.runStart).V = s.V := rfl
@[simp] theorem State.runStart_pc (s : State) : (s.runStart).pc = s.pc := rfl
@[simp] theorem State.runStart_I (s : State) : (s.runStart).I = s.I := rfl
@[simp] theorem State.runStart_stack (s : State) : (s.runStart).stack = s.stack := rfl
@[simp] theorem State.runStart_fb (s : State) : (s.runStart).fb = s.fb := rfl
@[simp] theorem State.runStart_DT (s : State) : (s.runStart).DT = s.DT := rfl
@[simp] theorem State.runStart_ST (s : State) : (s.runStart).ST = s.ST := rfl
@[simp] theorem State.runStart_started (s : State) : (s.runStart).started = true := rfl
@[simp] theorem State.runStart_fatal (s : State) : (s.runStart).fatal = s.fatal := rfl
@[simp] theorem State.runStart_phase (s : State) : (s.runStart).phase = .running := rfl
@[simp] theorem State.runStart_keyWait (s : State) : (s.runStart).keyWait = s.keyWait := rfl
@[simp] theorem State.runStart_fetchAt (s : State) : (s.runStart).fetchAt = s.fetchAt := rfl
@[simp] theorem State.runStart_fetchWord (s : State) : (s.runStart).fetchWord = s.fetchWord := rfl
@[simp] theorem State.runStart_config (s : State) : (s.runStart).config = s.config := rfl
@[simp] theorem State.runStart_out (s : State) : (s.runStart).out = s.out := rfl
@[simp] theorem State.runStart_host (s : State) : (s.runStart).host = s.host := rfl

/-! `State.fetched` -/

@[simp] theorem State.fetched_mem (s : State) (w : Word) : (s.fetched w).mem = s.mem := rfl
@[simp] theorem State.fetched_V (s : State) (w : Word) : (s.fetched w).V = s.V := rfl
@[simp] theorem State.fetched_pc (s : State) (w : Word) : (s.fetched w).pc = s.pc + 2#12 := rfl
@[simp] theorem State.fetched_I (s : State) (w : Word) : (s.fetched w).I = s.I := rfl
@[simp] theorem State.fetched_stack (s : State) (w : Word) : (s.fetched w).stack = s.stack := rfl
@[simp] theorem State.fetched_fb (s : State) (w : Word) : (s.fetched w).fb = s.fb := rfl
@[simp] theorem State.fetched_DT (s : State) (w : Word) : (s.fetched w).DT = s.DT := rfl
@[simp] theorem State.fetched_ST (s : State) (w : Word) : (s.fetched w).ST = s.ST := rfl
@[simp] theorem State.fetched_started (s : State) (w : Word) : (s.fetched w).started = s.started := rfl
@[simp] theorem State.fetched_fatal (s : State) (w : Word) : (s.fetched w).fatal = s.fatal := rfl
@[simp] theorem State.fetched_phase (s : State) (w : Word) : (s.fetched w).phase = s.phase := rfl
@[simp] theorem State.fetched_keyWait (s : State) (w : Word) : (s.fetched w).keyWait = s.keyWait := rfl
@[simp] theorem State.fetched_fetchAt (s : State) (w : Word) : (s.fetched w).fetchAt = s.pc := rfl
@[simp] theorem State.fetched_fetchWord (s : State) (w : Word) : (s.fetched w).fetchWord = some w := rfl
@[simp] theorem State.fetched_config (s : State) (w : Word) : (s.fetched w).config = s.config := rfl
@[simp] theorem State.fetched_out (s : State) (w : Word) : (s.fetched w).out = s.out := rfl
@[simp] theorem State.fetched_host (s : State) (w : Word) : (s.fetched w).host = s.host := rfl

/-! `raiseFatal`: the fields that have a value after a fatal stop (60_exceptions.md R312). -/

@[simp] theorem raiseFatal_fatal (e : Raised) (s : State) : (raiseFatal e s).fatal = some (faultRecord e.cause e.info s) := rfl
@[simp] theorem raiseFatal_phase (e : Raised) (s : State) : (raiseFatal e s).phase = .stopped := rfl
@[simp] theorem raiseFatal_keyWait (e : Raised) (s : State) : (raiseFatal e s).keyWait = none := rfl
@[simp] theorem raiseFatal_started (e : Raised) (s : State) : (raiseFatal e s).started = s.started := rfl
@[simp] theorem raiseFatal_config (e : Raised) (s : State) : (raiseFatal e s).config = s.config := rfl
@[simp] theorem raiseFatal_fetchAt (e : Raised) (s : State) : (raiseFatal e s).fetchAt = s.fetchAt := rfl
@[simp] theorem raiseFatal_fetchWord (e : Raised) (s : State) : (raiseFatal e s).fetchWord = s.fetchWord := rfl
@[simp] theorem raiseFatal_out (e : Raised) (s : State) : (raiseFatal e s).out = s.out ++ [.fatalReport (faultRecord e.cause e.info s)] := rfl

/-- A raised condition is a fatal stop with its cause. -/
theorem raiseFatal_stopsWith (e : Raised) (s : State) : StopsWith e.cause e.info s (raiseFatal e s) := by
  simp [StopsWith]

@[simp] theorem settle_ok (s t : State) : settle s (.ok t) = t := rfl

@[simp] theorem settle_error (s : State) (e : Raised) : settle s (.error e) = raiseFatal e s := rfl

/-! Registers -/

theorem State.reg_setReg (s : State) (x k : Nibble) (v : Byte) :
    (s.setReg x v).reg k = if k = x then v else s.reg k := by
  unfold State.reg State.setReg
  simp only [Vector.getElem_set, BitVec.toNat_eq, eq_comm]

@[simp] theorem State.reg_setReg_same (s : State) (x : Nibble) (v : Byte) : (s.setReg x v).reg x = v := by
  simp [State.reg_setReg]

theorem State.reg_setReg_of_ne (s : State) (x k : Nibble) (v : Byte) (h : k ≠ x) :
    (s.setReg x v).reg k = s.reg k := by
  simp [State.reg_setReg, h]

/-- States with the same register file read the same in every register. -/
theorem State.reg_congr (s t : State) (h : t.V = s.V) (k : Nibble) : t.reg k = s.reg k := by
  unfold State.reg
  simp only [h]

/-- The result, then the flag: the flag stands in `V[0xF]`, whatever `x` is (10_state.md R29). -/
theorem State.reg_setResultAndFlag (s : State) (x k : Nibble) (r f : Byte) :
    (s.setResultAndFlag x r f).reg k = if k = flagIndex then f else if k = x then r else s.reg k := by
  simp [State.setResultAndFlag, State.reg_setReg]

/-- The registers after a run of bytes is written from `V[k]` up. -/
theorem loadRegs_getElem (V : Vector Byte 16) (bs : List Byte) (k j : Nat) (hj : j < 16) :
    (loadRegs V k bs)[j] = if h : k ≤ j ∧ j < k + bs.length then bs[j - k]'(by omega) else V[j] := by
  induction bs generalizing V k with
  | nil =>
    simp only [loadRegs, List.length_nil, Nat.add_zero]
    rw [dif_neg (by omega)]
  | cons b bs ih =>
    simp only [loadRegs, ih, List.length_cons]
    by_cases h1 : k + 1 ≤ j ∧ j < k + 1 + bs.length
    · rw [dif_pos h1, dif_pos (by omega)]
      have : j - k = (j - (k + 1)) + 1 := by omega
      simp [this]
    · rw [dif_neg h1, Vector.getElem_setIfInBounds]
      by_cases h2 : k = j
      · subst h2
        rw [dif_pos (by omega)]
        simp
      · rw [if_neg h2, dif_neg (by omega)]

/-! Frames -/

/-- A frame, part by part. -/
theorem keeps_of (changed : List Part) (s t : State) (h : ∀ p, p ∈ changed ∨ p.same s t) : Keeps changed s t :=
  fun p hp => (h p).resolve_left hp

/-- `setReg` changes registers only. -/
theorem State.setReg_keeps (s : State) (x : Nibble) (v : Byte) : Keeps [.regs] s (s.setReg x v) := by
  intro p hp
  cases p <;> simp_all [Part.same]

/-- `setResultAndFlag` changes registers only. -/
theorem State.setResultAndFlag_keeps (s : State) (x : Nibble) (r f : Byte) :
    Keeps [.regs] s (s.setResultAndFlag x r f) := by
  intro p hp
  cases p <;> simp_all [Part.same, State.setResultAndFlag]

end Sys2Proof.Machine
end

