-- ==== Sys2Proof/Laws/Ops.lean ====
section
/-! SUPPORT. Sys2Proof/Laws/Ops.lean: for each shared operation, once, everything it can do. -/

namespace Sys2Proof.Machine

/-- A cycle ends in the state computed or in the fatal stop of the condition raised. -/
theorem settle_cases (s : State) (r : Except Raised State) :
    (∃ t, r = .ok t ∧ settle s r = t) ∨ (∃ e, r = .error e ∧ settle s r = raiseFatal e s) := by
  cases r with
  | ok t => exact .inl ⟨t, rfl, rfl⟩
  | error e => exact .inr ⟨e, rfl, rfl⟩

/-- `chk12` answers the value within 12 bits, or raises it. -/
theorem chk12_cases (v : Nat) :
    (v ≤ maxAddr ∧ ∃ a : Addr, a.toNat = v ∧ chk12 v = .ok a) ∨
      (maxAddr < v ∧ chk12 v = .error ⟨.addressOverflow, some v⟩) := by
  by_cases h : v ≤ maxAddr
  · refine .inl ⟨h, _, ?_, chk12_ok v h⟩
    simp only [maxAddr] at h
    simp only [BitVec.toNat_ofNat]
    omega
  · exact .inr ⟨by omega, chk12_error v (by omega)⟩

/-- A push appends the address, or raises it when the stack is at its limit. -/
theorem push_cases (s : State) (a : Addr) :
    (s.config.stackLimit ≠ some s.stack.length ∧ push s a = .ok { s with stack := s.stack ++ [a] }) ∨
      (s.config.stackLimit = some s.stack.length ∧ push s a = .error ⟨.stackOverflow, some a.toNat⟩) := by
  unfold push
  by_cases h : s.config.stackLimit = some s.stack.length
  · exact .inr ⟨h, if_pos h⟩
  · exact .inl ⟨h, if_neg h⟩

/-- A pop takes the last address, or raises when there is none. -/
theorem pop_cases (s : State) :
    (s.stack = [] ∧ pop s = .error ⟨.emptyStackReturn, none⟩) ∨
      (∃ rest a, s.stack = rest ++ [a] ∧ pop s = .ok (a, { s with stack := rest })) := by
  unfold pop
  rcases List.eq_nil_or_concat s.stack with h | ⟨rest, a, h⟩
  · exact .inl ⟨h, by simp [h]⟩
  · refine .inr ⟨rest, a, by simpa using h, ?_⟩
    simp [h]

/-- A skip adds 2 to `pc` when its condition holds, raises when that passes 0xFFF, and does nothing otherwise. -/
theorem skipIf_cases (c : Bool) (s : State) :
    (c = false ∧ skipIf c s = .ok s) ∨
      (c = true ∧ s.pc.toNat + 2 ≤ maxAddr ∧
        ∃ a : Addr, a.toNat = s.pc.toNat + 2 ∧ skipIf c s = .ok { s with pc := a }) ∨
      (c = true ∧ maxAddr < s.pc.toNat + 2 ∧
        skipIf c s = .error ⟨.addressOverflow, some (s.pc.toNat + 2)⟩) := by
  cases c with
  | false => exact .inl ⟨rfl, rfl⟩
  | true =>
    rcases chk12_cases (s.pc.toNat + 2) with ⟨h, a, ha, hc⟩ | ⟨h, hc⟩
    · exact .inr (.inl ⟨rfl, h, a, ha, by simp [skipIf, takeSkip, hc]⟩)
    · exact .inr (.inr ⟨rfl, h, by simp [skipIf, takeSkip, hc]⟩)

/-- The index advance leaves `I`, adds `x`+1 to it, or raises when that passes 0xFFF. -/
theorem advanceIndex_cases (s : State) (x : Nibble) :
    (s.config.indexAdvance = false ∧ advanceIndex s x = .ok s) ∨
      (s.config.indexAdvance = true ∧ s.I.toNat + x.toNat + 1 ≤ maxAddr ∧
        ∃ a : Addr, a.toNat = s.I.toNat + x.toNat + 1 ∧ advanceIndex s x = .ok { s with I := a }) ∨
      (s.config.indexAdvance = true ∧ maxAddr < s.I.toNat + x.toNat + 1 ∧
        advanceIndex s x = .error ⟨.addressOverflow, some (s.I.toNat + x.toNat + 1)⟩) := by
  cases hq : s.config.indexAdvance with
  | false => exact .inl ⟨rfl, by simp [advanceIndex, hq]⟩
  | true =>
    rcases chk12_cases (s.I.toNat + x.toNat + 1) with ⟨h, a, ha, hc⟩ | ⟨h, hc⟩
    · exact .inr (.inl ⟨rfl, h, a, ha, by simp [advanceIndex, hq, hc]⟩)
    · exact .inr (.inr ⟨rfl, h, by simp [advanceIndex, hq, hc]⟩)

/-- A `Present` appends the grid to the outputs and, when the sink fails, stops the run; nothing else changes. -/
theorem present_cases (s : State) :
    (s.host.takeSink.1 = .ok ∧
        s.present = { s with out := s.out ++ [.present s.fb], host := s.host.takeSink.2 }) ∨
      (s.host.takeSink.1 = .failure ∧
        s.present = { s with out := s.out ++ [.present s.fb] ++ [.hostFailure .renderSink],
                             host := s.host.takeSink.2, phase := .stopped, keyWait := none }) := by
  unfold State.present
  cases h : s.host.takeSink.1 with
  | ok => exact .inl ⟨rfl, rfl⟩
  | failure => exact .inr ⟨rfl, rfl⟩

/-- A key request completes on an answer, stops the run on a failure, or waits with only the pending request changed. -/
theorem askKey_cases (r : KeyRequest) (s : State) :
    (∃ a t, finishKey r a { s with keyWait := none, host := s.host.takeKey.2 } = .ok t ∧ askKey r s = t) ∨
      (∃ a e, finishKey r a { s with keyWait := none, host := s.host.takeKey.2 } = .error e ∧
        askKey r s = raiseFatal e { s with keyWait := none, host := s.host.takeKey.2 }) ∨
      (s.host.takeKey.1 = .failure ∧
        askKey r s = ({ s with keyWait := none, host := s.host.takeKey.2 } : State).hostFailure .keyRead) ∨
      (s.host.takeKey.1 = .notYet ∧
        askKey r s = { s with keyWait := some r, host := s.host.takeKey.2 }) := by
  have answer (a : KeyAnswer) :
      (∃ t, finishKey r a { s with keyWait := none, host := s.host.takeKey.2 } = .ok t ∧
        settle { s with keyWait := none, host := s.host.takeKey.2 }
          (finishKey r a { s with keyWait := none, host := s.host.takeKey.2 }) = t) ∨
      (∃ e, finishKey r a { s with keyWait := none, host := s.host.takeKey.2 } = .error e ∧
        settle { s with keyWait := none, host := s.host.takeKey.2 }
          (finishKey r a { s with keyWait := none, host := s.host.takeKey.2 }) =
          raiseFatal e { s with keyWait := none, host := s.host.takeKey.2 }) :=
    settle_cases _ _
  unfold askKey
  cases h : s.host.takeKey.1 with
  | char c =>
    rcases answer (keyOfChar c) with ⟨t, h1, h2⟩ | ⟨e, h1, h2⟩
    · exact .inl ⟨_, t, h1, h2⟩
    · exact .inr (.inl ⟨_, e, h1, h2⟩)
  | nothing =>
    rcases answer .noKey with ⟨t, h1, h2⟩ | ⟨e, h1, h2⟩
    · exact .inl ⟨_, t, h1, h2⟩
    · exact .inr (.inl ⟨_, e, h1, h2⟩)
  | failure => exact .inr (.inr (.inl ⟨rfl, rfl⟩))
  | notYet => exact .inr (.inr (.inr ⟨rfl, rfl⟩))

/-- An image that fits is put at 0x200 upward. -/
theorem loadImage_accepts (s : State) (image : List Byte) (h : image.length ≤ maxImage) :
    s.loadImage image =
      { s with mem := Memory.writeRun s.mem progBase image, phase := .loaded, out := s.out ++ [.loadAccepted] } := by
  have hf : imageFits image = true := by simpa [imageFits] using h
  simp [State.loadImage, hf]

/-- An image that does not fit leaves the state as it is but for the answer. -/
theorem loadImage_rejects (s : State) (image : List Byte) (h : maxImage < image.length) :
    s.loadImage image = { s with out := s.out ++ [.loadRejected] } := by
  have hf : imageFits image = false := by simpa [imageFits] using h
  simp [State.loadImage, hf]

/-- Fetch and advance answers the word and the state of the execute part, or the fatal stop of the top two addresses
(50_cycle.md R245, R246). -/
theorem fetchAndAdvance_ok (s : State) (h : s.pc.toNat + 2 ≤ maxAddr) :
    fetchAndAdvance s =
      .word (wordOfBytes (Memory.read s.mem s.pc.toNat) (Memory.read s.mem (s.pc.toNat + 1)))
        (s.fetched (wordOfBytes (Memory.read s.mem s.pc.toNat) (Memory.read s.mem (s.pc.toNat + 1)))) := by
  have hp : BitVec.ofNat 12 (s.pc.toNat + 2) = s.pc + 2#12 := by
    apply BitVec.eq_of_toNat_eq
    simp [BitVec.toNat_add]
  simp only [fetchAndAdvance, readWord_ok s.mem s.pc.toNat (by omega), chk12_ok _ h, hp]
  rfl

/-- Every instruction answers a next state: a fatal stop is one too (60_exceptions.md R310). -/
theorem exec_next (i : Instr) (s : State) : ∃ t, exec i s = .next t := by
  cases i <;> exact ⟨_, rfl⟩

/-- While the run goes, the CPU agent's part answers a next state. -/
theorem cpuStep_next (s : State) : ∃ t, cpuStep s = .next t := by
  unfold cpuStep
  split
  · exact ⟨_, rfl⟩
  · unfold executeFetched
    split
    · exact ⟨_, rfl⟩
    · split
      · exact exec_next _ _
      · exact ⟨_, rfl⟩

/-- What one step can do, by phase (70_reset_and_hazards.md R341). -/
theorem step_cases (s t : State) (h : step s = .next t) :
    (s.phase = .constructed ∧ t = s.offerImage) ∨ (s.phase = .loaded ∧ t = s.runStart) ∨
      (s.phase = .running ∧ ∃ u, cpuStep s = .next u ∧ t = u.timerPhase) := by
  unfold step at h
  cases hp : s.phase with
  | constructed => rw [hp] at h; exact .inl ⟨rfl, (Host.Outcome.next.inj h).symm⟩
  | loaded => rw [hp] at h; exact .inr (.inl ⟨rfl, (Host.Outcome.next.inj h).symm⟩)
  | running =>
    obtain ⟨u, hu⟩ := cpuStep_next s
    simp only [hp, hu, thenTimers, Host.Outcome.next.injEq] at h
    exact .inr (.inr ⟨rfl, u, hu, h.symm⟩)
  | stopped => simp [hp] at h

end Sys2Proof.Machine
end

