-- ==== Sys2Proof/Laws/PerInstr.lean ====
section
/-! SUPPORT. Sys2Proof/Laws/PerInstr.lean: the family `RowMatch`: the word of every instruction selects the row of the opcode
map (30_encoding.md R97) that is the instruction's own. -/

namespace Sys2Proof.Laws.RowMatch

/-- The mask and the fixed bits the opcode table gives each instruction (30_encoding.md R97). -/
def row : Instr → Word × Word
  | .cls => (0xF0FF#16, 0x00E0#16)
  | .ret => (0xF0FF#16, 0x00EE#16)
  | .jp _ => (0xF000#16, 0x1000#16)
  | .call _ => (0xF000#16, 0x2000#16)
  | .seImm _ _ => (0xF000#16, 0x3000#16)
  | .sneImm _ _ => (0xF000#16, 0x4000#16)
  | .seReg _ _ => (0xF000#16, 0x5000#16)
  | .ldImm _ _ => (0xF000#16, 0x6000#16)
  | .addImm _ _ => (0xF000#16, 0x7000#16)
  | .ldReg _ _ => (0xF00F#16, 0x8000#16)
  | .orReg _ _ => (0xF00F#16, 0x8001#16)
  | .andReg _ _ => (0xF00F#16, 0x8002#16)
  | .xorReg _ _ => (0xF00F#16, 0x8003#16)
  | .addReg _ _ => (0xF00F#16, 0x8004#16)
  | .subReg _ _ => (0xF00F#16, 0x8005#16)
  | .shr _ _ => (0xF00F#16, 0x8006#16)
  | .subn _ _ => (0xF00F#16, 0x8007#16)
  | .shl _ _ => (0xF00F#16, 0x800E#16)
  | .sneReg _ _ => (0xF000#16, 0x9000#16)
  | .ldI _ => (0xF000#16, 0xA000#16)
  | .jpV0 _ => (0xF000#16, 0xB000#16)
  | .rnd _ _ => (0xF000#16, 0xC000#16)
  | .drw _ _ _ => (0xF000#16, 0xD000#16)
  | .skp _ => (0xF0FF#16, 0xE09E#16)
  | .sknp _ => (0xF0FF#16, 0xE0A1#16)
  | .ldVxDt _ => (0xF0FF#16, 0xF007#16)
  | .ldVxK _ => (0xF0FF#16, 0xF00A#16)
  | .ldDtVx _ => (0xF0FF#16, 0xF015#16)
  | .ldStVx _ => (0xF0FF#16, 0xF018#16)
  | .addI _ => (0xF0FF#16, 0xF01E#16)
  | .ldF _ => (0xF0FF#16, 0xF029#16)
  | .ldB _ => (0xF0FF#16, 0xF033#16)
  | .save _ => (0xF0FF#16, 0xF055#16)
  | .load _ => (0xF0FF#16, 0xF065#16)

/-- The instruction's word, masked, is its row's fixed bits. -/
def Statement (i : Instr) : Prop := encode i &&& (row i).1 = (row i).2

/-- A word of format NNN under the family mask. -/
theorem nnnForm (o : Nibble) (nnn : Addr) : formatNnn o nnn &&& formatNnn 0xF#4 0x000#12 = formatNnn o 0x000#12 := by
  rw [formatNnn_and, BitVec.and_zero, show (0xF#4 : Nibble) = BitVec.allOnes 4 from rfl, BitVec.and_allOnes]

/-- A word of format XNN under the family mask. -/
theorem xnnForm (o x : Nibble) (nn : Byte) :
    formatXnn o x nn &&& formatXnn 0xF#4 0x0#4 0x00#8 = formatXnn o 0x0#4 0x00#8 := by
  rw [formatXnn_and, BitVec.and_zero, BitVec.and_zero, show (0xF#4 : Nibble) = BitVec.allOnes 4 from rfl,
    BitVec.and_allOnes]

/-- A word of format XSS or 0SS under the mask of family and sub-opcode. -/
theorem xssForm (o x : Nibble) (nn : Byte) :
    formatXnn o x nn &&& formatXnn 0xF#4 0x0#4 0xFF#8 = formatXnn o 0x0#4 nn := by
  rw [formatXnn_and, BitVec.and_zero, show (0xF#4 : Nibble) = BitVec.allOnes 4 from rfl, BitVec.and_allOnes,
    show (0xFF#8 : Byte) = BitVec.allOnes 8 from rfl, BitVec.and_allOnes]

/-- A word of format XYN under the family mask. -/
theorem xynForm (o x y n : Nibble) :
    formatXyn o x y n &&& formatXyn 0xF#4 0x0#4 0x0#4 0x0#4 = formatXyn o 0x0#4 0x0#4 0x0#4 := by
  rw [formatXyn_and, BitVec.and_zero, BitVec.and_zero, BitVec.and_zero,
    show (0xF#4 : Nibble) = BitVec.allOnes 4 from rfl, BitVec.and_allOnes]

/-- A word of family 8 under the mask of family and sub-opcode. -/
theorem family8Form (o x y n : Nibble) :
    formatXyn o x y n &&& formatXyn 0xF#4 0x0#4 0x0#4 0xF#4 = formatXyn o 0x0#4 0x0#4 n := by
  rw [formatXyn_and, BitVec.and_zero, BitVec.and_zero, show (0xF#4 : Nibble) = BitVec.allOnes 4 from rfl,
    BitVec.and_allOnes, BitVec.and_allOnes]

theorem cls : Statement .cls := rfl
theorem ret : Statement .ret := rfl
theorem jp (nnn : Addr) : Statement (.jp nnn) := nnnForm _ nnn
theorem call (nnn : Addr) : Statement (.call nnn) := nnnForm _ nnn
theorem ldI (nnn : Addr) : Statement (.ldI nnn) := nnnForm _ nnn
theorem jpV0 (nnn : Addr) : Statement (.jpV0 nnn) := nnnForm _ nnn
theorem seImm (x : Nibble) (nn : Byte) : Statement (.seImm x nn) := xnnForm _ x nn
theorem sneImm (x : Nibble) (nn : Byte) : Statement (.sneImm x nn) := xnnForm _ x nn
theorem ldImm (x : Nibble) (nn : Byte) : Statement (.ldImm x nn) := xnnForm _ x nn
theorem addImm (x : Nibble) (nn : Byte) : Statement (.addImm x nn) := xnnForm _ x nn
theorem rnd (x : Nibble) (nn : Byte) : Statement (.rnd x nn) := xnnForm _ x nn
theorem seReg (x y : Nibble) : Statement (.seReg x y) := xynForm _ x y _
theorem sneReg (x y : Nibble) : Statement (.sneReg x y) := xynForm _ x y _
theorem drw (x y n : Nibble) : Statement (.drw x y n) := xynForm _ x y n
theorem ldReg (x y : Nibble) : Statement (.ldReg x y) := family8Form _ x y _
theorem orReg (x y : Nibble) : Statement (.orReg x y) := family8Form _ x y _
theorem andReg (x y : Nibble) : Statement (.andReg x y) := family8Form _ x y _
theorem xorReg (x y : Nibble) : Statement (.xorReg x y) := family8Form _ x y _
theorem addReg (x y : Nibble) : Statement (.addReg x y) := family8Form _ x y _
theorem subReg (x y : Nibble) : Statement (.subReg x y) := family8Form _ x y _
theorem shr (x y : Nibble) : Statement (.shr x y) := family8Form _ x y _
theorem subn (x y : Nibble) : Statement (.subn x y) := family8Form _ x y _
theorem shl (x y : Nibble) : Statement (.shl x y) := family8Form _ x y _
theorem skp (x : Nibble) : Statement (.skp x) := xssForm _ x _
theorem sknp (x : Nibble) : Statement (.sknp x) := xssForm _ x _
theorem ldVxDt (x : Nibble) : Statement (.ldVxDt x) := xssForm _ x _
theorem ldVxK (x : Nibble) : Statement (.ldVxK x) := xssForm _ x _
theorem ldDtVx (x : Nibble) : Statement (.ldDtVx x) := xssForm _ x _
theorem ldStVx (x : Nibble) : Statement (.ldStVx x) := xssForm _ x _
theorem addI (x : Nibble) : Statement (.addI x) := xssForm _ x _
theorem ldF (x : Nibble) : Statement (.ldF x) := xssForm _ x _
theorem ldB (x : Nibble) : Statement (.ldB x) := xssForm _ x _
theorem save (x : Nibble) : Statement (.save x) := xssForm _ x _
theorem load (x : Nibble) : Statement (.load x) := xssForm _ x _

end Sys2Proof.Laws.RowMatch
end

