-- ==== Sys2Proof/Laws/Timers.lean ====
section
/-! SUPPORT. Sys2Proof/Laws/Timers.lean: `State.decay` is `State.tick` repeated (51_timers.md R273). -/

namespace Sys2Proof.Machine

theorem State.ticking_tick (s : State) : s.tick.ticking = s.ticking := rfl

theorem countdown_zero (c : Byte) : countdown c 0 = c := by
  unfold countdown
  split
  · simp_all
  · simp

/-- One decrement, then `n` more. -/
theorem countdown_succ (c : Byte) (n : Nat) : countdown c (n + 1) = countdown (decrement c) n := by
  unfold countdown decrement
  by_cases h : c = 0#8
  · simp [h]
  · have hc : c.toNat ≠ 0 := fun h0 => h (BitVec.eq_of_toNat_eq (by simpa using h0))
    have hd : (c - 1#8).toNat = c.toNat - 1 := by
      have := c.isLt
      rw [BitVec.toNat_sub]
      simp only [BitVec.toNat_ofNat]
      omega
    rw [if_neg h, if_neg h]
    split <;> rename_i h1
    · have : c.toNat - 1 = 0 := by rw [← hd, h1]; rfl
      rw [show c.toNat - (n + 1) = 0 by omega]
    · rw [hd, Nat.sub_sub, Nat.add_comm 1 n]

/-- `n` ticks at once are `n` single ticks. -/
theorem decay_eq_ticks (n : Nat) (s : State) : s.decay n = State.tick^[n] s := by
  induction n generalizing s with
  | zero => simp only [State.decay, countdown_zero, ite_self, Function.iterate_zero, id_eq]
  | succ n ih =>
    rw [Function.iterate_succ_apply, ← ih]
    by_cases h : s.ticking = true
    · have h' : s.tick.ticking = true := h
      simp only [State.decay, h, h', if_true, countdown_succ]
      simp [State.tick, h]
    · have h' : ¬ s.tick.ticking = true := h
      simp only [State.decay, if_neg h, if_neg h']
      simp [State.tick, h]

end Sys2Proof.Machine
end

