-- ==== Sys2Proof/Tests/Slice0.lean ====
section
/-! SUPPORT. Sys2Proof/Tests/Slice0.lean: small tests. Each expected value is the one of spec/95_test_vectors.md (T<n>) or of the
rule named, never the model's own answer. Then one witness per obligation that has hypotheses. -/

namespace Sys2Proof.Tests

open Sys2Proof.Machine

/-! ## Helpers -/

/-- A running block with the given quirks and registers, `I` = 0x300, and bytes from 0x300. -/
def boot (shiftCopy jumpVx indexAdvance : Bool) (V : List Byte) (bytes : List Byte) : State :=
  { State.reset with
    config := { shiftCopy := shiftCopy, jumpVx := jumpVx, indexAdvance := indexAdvance, stackLimit := none }
    V := loadRegs State.reset.V 0 V
    mem := Memory.writeRun [] 0x300 bytes
    I := 0x300#12
    started := true
    phase := .running }

/-- The same with every quirk off and no data. -/
def plain (V : List Byte) : State := boot false false false V []

/-- The same with one register set. -/
def withReg (x : Nibble) (v : Byte) : State := (plain []).setReg x v

/-- The host's next reply to a key request. -/
def answering (k : KeyReply) (s : State) : State := { s with host := { s.host with keys := [k] } }

/-- The host's next image. -/
def offering (image : List Byte) (s : State) : State := { s with host := { s.host with images := [image] } }

/-- The state after one step, no tick following and the sink answering. -/
def stepped (s : State) : State :=
  match step { s with host := { s.host with ticks := [0], sink := [.ok] } } with
  | .next t => t
  | _ => State.reset

/-- The state after one step on a word placed at `pc`. -/
def stepWord (w : Nat) (s : State) : State := stepped (s.withFetchWord 16 w)

/-- The cause and the value of the latch. -/
def latched (s : State) : Option (FatalCause × Option Nat) := s.fatal.map (fun r => (r.cause, r.info))

/-- How many grids were presented. -/
def presents (s : State) : Nat :=
  s.out.countP (fun o => match o with
    | .present _ => true
    | _ => false)

/-! ## Well-formedness: an ill-formed term for each check -/

theorem test_nibble_refuses_16 : nibbleInRange 16 = false ∧ nibbleInRange 15 = true := by decide
theorem test_byte_refuses_256 : byteInRange 256 = false ∧ byteInRange 255 = true := by decide
theorem test_address_refuses_1000 : addressInRange 0x1000 = false ∧ addressInRange 0xFFF = true := by decide
theorem test_image_refuses_3585 : imageFits (List.replicate 3585 0x00#8) = false := by
  simp only [imageFits, List.length_replicate]; decide
theorem test_image_accepts_3584 : imageFits (List.replicate 3584 0x00#8) = true := by
  simp only [imageFits, List.length_replicate]; decide
theorem test_font_refuses_79 : fontFits (fontRom.take 79) = false ∧ fontFits fontRom = true := by decide
theorem test_instr_wellFormed : (Instr.drw 0xF#4 0xF#4 0xF#4).wellFormed = true := by decide

/-! ## Decoding: words written out from 30_encoding.md R91 and R97 -/

theorem test_decode_cls : decode 0b0000000011100000#16 = .known .cls := by decide -- T1
theorem test_decode_ret : decode 0b0000000011101110#16 = .known .ret := by decide -- T2
theorem test_decode_jp : decode 0b0001001001000101#16 = .known (.jp 0x245#12) := by decide -- T3
theorem test_decode_call : decode 0b0010101010111100#16 = .known (.call 0xABC#12) := by decide -- T24
theorem test_decode_seImm : decode 0b0011101001111111#16 = .known (.seImm 0xA#4 0x7F#8) := by decide -- T25
theorem test_decode_sneImm : decode 0b0100101100000000#16 = .known (.sneImm 0xB#4 0x00#8) := by decide -- T26
theorem test_decode_seReg : decode 0b0101000100101111#16 = .known (.seReg 0x1#4 0x2#4) := by decide -- T27
theorem test_decode_ldImm : decode 0b0110110000110011#16 = .known (.ldImm 0xC#4 0x33#8) := by decide -- T29
theorem test_decode_addImm : decode 0b0111111101001010#16 = .known (.addImm 0xF#4 0x4A#8) := by decide -- T4
theorem test_decode_ldReg : decode 0b1000101010110000#16 = .known (.ldReg 0xA#4 0xB#4) := by decide -- T30
theorem test_decode_orReg : decode 0b1000101010110001#16 = .known (.orReg 0xA#4 0xB#4) := by decide -- T30
theorem test_decode_andReg : decode 0b1000101010110010#16 = .known (.andReg 0xA#4 0xB#4) := by decide -- T30
theorem test_decode_xorReg : decode 0b1000101010110011#16 = .known (.xorReg 0xA#4 0xB#4) := by decide -- T30
theorem test_decode_addReg : decode 0b1000101010110100#16 = .known (.addReg 0xA#4 0xB#4) := by decide -- T30
theorem test_decode_subReg : decode 0b1000101010110101#16 = .known (.subReg 0xA#4 0xB#4) := by decide -- T30
theorem test_decode_shr : decode 0b1000101010110110#16 = .known (.shr 0xA#4 0xB#4) := by decide -- T30
theorem test_decode_subn : decode 0b1000101010110111#16 = .known (.subn 0xA#4 0xB#4) := by decide -- T30
theorem test_decode_shl : decode 0b1000101010111110#16 = .known (.shl 0xA#4 0xB#4) := by decide -- T30
theorem test_decode_sneReg : decode 0b1001101010110111#16 = .known (.sneReg 0xA#4 0xB#4) := by decide -- T28
theorem test_decode_ldI : decode 0b1010000100100011#16 = .known (.ldI 0x123#12) := by decide -- T32
theorem test_decode_jpV0 : decode 0b1011001011110000#16 = .known (.jpV0 0x2F0#12) := by decide -- T33
theorem test_decode_rnd : decode 0b1100001110100101#16 = .known (.rnd 0x3#4 0xA5#8) := by decide -- T34
theorem test_decode_drw : decode 0b1101011011111010#16 = .known (.drw 0x6#4 0xF#4 0xA#4) := by decide -- T5
theorem test_decode_skp : decode 0b1110001110011110#16 = .known (.skp 0x3#4) := by decide -- T35
theorem test_decode_sknp : decode 0b1110001110100001#16 = .known (.sknp 0x3#4) := by decide -- T35
theorem test_decode_ldVxDt : decode 0b1111010100000111#16 = .known (.ldVxDt 0x5#4) := by decide -- T37
theorem test_decode_ldVxK : decode 0b1111010100001010#16 = .known (.ldVxK 0x5#4) := by decide -- T37
theorem test_decode_ldDtVx : decode 0b1111010100010101#16 = .known (.ldDtVx 0x5#4) := by decide -- T37
theorem test_decode_ldStVx : decode 0b1111010100011000#16 = .known (.ldStVx 0x5#4) := by decide -- T37
theorem test_decode_addI : decode 0b1111010100011110#16 = .known (.addI 0x5#4) := by decide -- T37
theorem test_decode_ldF : decode 0b1111010100101001#16 = .known (.ldF 0x5#4) := by decide -- T37
theorem test_decode_ldB : decode 0b1111010100110011#16 = .known (.ldB 0x5#4) := by decide -- T37
theorem test_decode_save : decode 0b1111010101010101#16 = .known (.save 0x5#4) := by decide -- T37
theorem test_decode_load : decode 0b1111010101100101#16 = .known (.load 0x5#4) := by decide -- T37
theorem test_decode_uninspected : decode 0b0000000111100000#16 = .known .cls ∧ decode 0b0000111111101110#16 = .known .ret := by decide -- T21, T22
theorem test_decode_unknown_family0 :
    [0x0000#16, 0x00E1#16, 0x00EF#16, 0x00FE#16, 0x0123#16].all (fun w => decode w = .unknown w) = true := by decide -- T20, T23
theorem test_decode_unknown_family8 :
    [0x8AB8#16, 0x8AB9#16, 0x8ABA#16, 0x8ABB#16, 0x8ABC#16, 0x8ABD#16, 0x8ABF#16].all (fun w => decode w = .unknown w) = true := by decide -- T31
theorem test_decode_unknown_familyE :
    [0xE39F#16, 0xE300#16, 0xE3A0#16].all (fun w => decode w = .unknown w) = true := by decide -- T36
theorem test_decode_unknown_familyF :
    [0xF500#16, 0xF575#16, 0xF585#16, 0xF530#16, 0xFFFF#16].all (fun w => decode w = .unknown w) = true := by decide -- T38
theorem test_table_word : decodeTableWord 16 0xD6FA = some (.drw 0x6#4 0xF#4 0xA#4) ∧ decodeTableWord 16 0x0000 = none := by
  decide
theorem test_encode_drw : encode (.drw 0x6#4 0xF#4 0xA#4) = 0b1101011011111010#16 := by decide
theorem test_bytes_big_endian : bytesOfWord 0x1245#16 = (0x12#8, 0x45#8) ∧ decodeBytes [0x12#8] = none := by decide

/-! ## The machine, one step each (spec/95_test_vectors.md) -/

-- T40, T41
theorem test_ret : (stepWord 0x00EE { plain [] with stack := [0x206#12], pc := 0x20C#12 }).pc = 0x206#12 := by decide
theorem test_ret_empty : latched (stepWord 0x00EE (plain [])) = some (.emptyStackReturn, none) := by decide
-- T42, T43
theorem test_jp_self : (stepWord 0x1200 (plain [])).pc = 0x200#12 := by decide
theorem test_jp_odd : (stepWord 0x1201 (plain [])).pc = 0x201#12 := by decide
-- T44; the limit of 10_state.md R31
theorem test_call : (stepWord 0x220A { plain [] with pc := 0x204#12 }).stack = [0x206#12] := by decide
theorem test_call_overflow :
    latched (stepWord 0x220A { plain [] with config := { (plain []).config with stackLimit := some 0 } }) =
      some (.stackOverflow, some 0x202) := by decide
-- T50, T51
theorem test_jpV0_quirk : (stepWord 0xB2F0 (boot false true false [0x01#8, 0x00#8, 0x04#8] [])).pc = 0x2F4#12 := by decide
theorem test_jpV0_overflow : latched (stepWord 0xBFFF (plain [0x01#8])) = some (.addressOverflow, some 0x1000) := by decide
-- T52, T62
theorem test_seImm : (stepWord 0x3100 { plain [] with pc := 0x208#12 }).pc = 0x20C#12 := by decide
theorem test_seImm_top :
    latched (stepWord 0x3100 { plain [] with pc := 0xFFC#12 }) = some (.addressOverflow, some 0x1000) := by decide
-- T54, T55
theorem test_sneImm_not_taken : (stepWord 0x4100 { plain [] with pc := 0x208#12 }).pc = 0x20A#12 := by decide
theorem test_sneImm_taken : (stepWord 0x4100 { plain [0x00#8, 0x01#8] with pc := 0x208#12 }).pc = 0x20C#12 := by decide
-- T57, T58
theorem test_seReg_taken : (stepWord 0x5120 (plain [0x00#8, 0x07#8, 0x07#8])).pc = 0x204#12 := by decide
theorem test_seReg_not_taken : (stepWord 0x5120 (plain [0x00#8, 0x07#8, 0x08#8])).pc = 0x202#12 := by decide
-- T60, T61
theorem test_sneReg_taken : (stepWord 0x9120 (plain [0x00#8, 0x07#8, 0x08#8])).pc = 0x204#12 := by decide
theorem test_sneReg_not_taken : (stepWord 0x9120 (plain [0x00#8, 0x07#8, 0x07#8])).pc = 0x202#12 := by decide
-- T46, T47
theorem test_fetch_at_FFE :
    latched (stepWord 0x1234 { plain [] with pc := 0xFFE#12 }) = some (.addressOverflow, some 0x1000) := by decide
theorem test_fetch_at_FFF :
    (stepped { plain [] with pc := 0xFFF#12 }).fatal = some ⟨.memoryOutOfRange, none, 0xFFF#12, some 0x1000⟩ := by decide
-- T185, T186
theorem test_unknown_zero : latched (stepWord 0x0000 (plain [])) = some (.unknownInstruction, some 0x0000) := by decide
theorem test_unknown_record :
    (stepWord 0x8ABF (plain [])).fatal = some ⟨.unknownInstruction, some 0x8ABF#16, 0x200#12, some 0x8ABF⟩ := by decide

-- T71, T74
theorem test_ldImm : (stepWord 0x6FAB (plain [])).reg 0xF#4 = 0xAB#8 := by decide
theorem test_addImm_wraps : (stepWord 0x7101 ((plain [0x00#8, 0xFF#8]).setReg 0xF#4 0x55#8)).V =
    loadRegs State.reset.V 15 [0x55#8] := by decide
-- T75, T76, T77, T78
theorem test_ldReg : (stepWord 0x8EF0 (withReg 0xF#4 0x01#8)).reg 0xE#4 = 0x01#8 := by decide
theorem test_orReg : (stepWord 0x8121 (plain [0x00#8, 0x0F#8, 0xF0#8])).reg 0x1#4 = 0xFF#8 := by decide
theorem test_orReg_flag_kept : (stepWord 0x8121 (withReg 0xF#4 0x01#8)).reg 0xF#4 = 0x01#8 := by decide
theorem test_andReg : (stepWord 0x8122 (plain [0x00#8, 0x3C#8, 0x0F#8])).reg 0x1#4 = 0x0C#8 := by decide
theorem test_xorReg : (stepWord 0x8123 (plain [0x00#8, 0xFF#8, 0x0F#8])).reg 0x1#4 = 0xF0#8 := by decide
-- T9, T82
theorem test_addReg_carry : (stepWord 0x8124 (plain [0x00#8, 0xFF#8, 0x01#8])).V =
    loadRegs (loadRegs State.reset.V 0 [0x00#8, 0x00#8, 0x01#8]) 15 [0x01#8] := by decide
theorem test_addReg_flag_last : (stepWord 0x8F14 ((plain [0x00#8, 0x20#8]).setReg 0xF#4 0xF0#8)).reg 0xF#4 = 0x01#8 := by
  decide
-- T10, T87
theorem test_subReg_borrow : (stepWord 0x8125 (plain [0x00#8, 0x01#8, 0x02#8])).V =
    loadRegs State.reset.V 0 [0x00#8, 0xFF#8, 0x02#8] := by decide
theorem test_subReg_equal : (stepWord 0x8125 (plain [0x00#8, 0x07#8, 0x07#8])).reg 0xF#4 = 0x01#8 := by decide
-- T92, T93
theorem test_subn_borrow : (stepWord 0x8127 (plain [0x00#8, 0x02#8, 0x01#8])).V =
    loadRegs State.reset.V 0 [0x00#8, 0xFF#8, 0x01#8] := by decide
theorem test_subn_no_borrow : (stepWord 0x8127 (plain [0x00#8, 0x01#8, 0x03#8])).V =
    loadRegs (loadRegs State.reset.V 0 [0x00#8, 0x02#8, 0x03#8]) 15 [0x01#8] := by decide
-- T97, T98
theorem test_shr : (stepWord 0x8126 (plain [0x00#8, 0x04#8, 0x81#8])).V =
    loadRegs State.reset.V 0 [0x00#8, 0x02#8, 0x81#8] := by decide
theorem test_shr_copy : (stepWord 0x8126 (boot true false false [0x00#8, 0x04#8, 0x81#8] [])).V =
    loadRegs (loadRegs State.reset.V 0 [0x00#8, 0x40#8, 0x81#8]) 15 [0x01#8] := by decide
-- T103, T102
theorem test_shl : (stepWord 0x812E (plain [0x00#8, 0x01#8, 0xC0#8])).V =
    loadRegs State.reset.V 0 [0x00#8, 0x02#8, 0xC0#8] := by decide
theorem test_shl_copy : (stepWord 0x812E (boot true false false [0x00#8, 0x01#8, 0xC0#8] [])).V =
    loadRegs (loadRegs State.reset.V 0 [0x00#8, 0x80#8, 0xC0#8]) 15 [0x01#8] := by decide
-- T106, T107
theorem test_rnd : (stepWord 0xC10F { plain [] with host := { HostInputs.empty with rand := [0xA7#8] } }).reg 0x1#4 =
    0x07#8 := by decide
theorem test_rnd_zero_mask :
    (stepWord 0xCF00 { withReg 0xF#4 0x09#8 with host := { HostInputs.empty with rand := [0xFF#8] } }).reg 0xF#4 =
      0x00#8 := by decide

-- T111, T113, T114, T118
theorem test_ldI : (stepWord 0xAFFF (plain [])).I = 0xFFF#12 := by decide
theorem test_addI : (stepWord 0xF21E { plain [0x00#8, 0x00#8, 0xFE#8] with I := 0xF01#12 }).I = 0xFFF#12 := by decide
theorem test_addI_overflow : latched (stepWord 0xF21E { plain [0x00#8, 0x00#8, 0x01#8] with I := 0xFFF#12 }) =
    some (.addressOverflow, some 0x1000) := by decide
theorem test_ldF_low_nibble : (stepWord 0xF029 (plain [0x1A#8])).I = 0x082#12 := by decide
theorem test_font_glyph_7 : (List.range 5).map (fun j => Memory.read State.reset.mem (0x073 + j)) =
    [0xF0#8, 0x10#8, 0x20#8, 0x40#8, 0x40#8] := by decide
-- T121, T126
theorem test_ldB : (stepWord 0xF033 (plain [0xEA#8])).mem =
    [(0x200, 0xF0#8), (0x201, 0x33#8), (0x300, 0x02#8), (0x301, 0x03#8), (0x302, 0x04#8)] := by decide
theorem test_ldB_top : latched (stepWord 0xF033 { plain [0x64#8] with I := 0xFFE#12 }) =
    some (.memoryOutOfRange, some 0x1000) := by decide
-- T128, T130
theorem test_save_advance : (fun t : State => (t.mem.drop 2, t.I))
    (stepWord 0xF255 { boot false false true [0x11#8, 0x22#8, 0x33#8, 0x44#8] [] with I := 0x400#12 }) =
    ([(0x400, 0x11#8), (0x401, 0x22#8), (0x402, 0x33#8)], 0x403#12) := by decide
theorem test_save_index_overflow :
    latched (stepWord 0xF255 { boot false false true [0x11#8, 0x22#8, 0x33#8] [] with I := 0xFFD#12 }) =
      some (.addressOverflow, some 0x1000) := by decide
-- T134, T137
theorem test_load : (stepWord 0xF265 (boot false false false [0x00#8, 0x00#8, 0x00#8, 0x99#8] [0x02#8, 0x03#8, 0x04#8])).V =
    loadRegs State.reset.V 0 [0x02#8, 0x03#8, 0x04#8, 0x99#8] := by decide
theorem test_load_top : latched (stepWord 0xF165 { plain [] with I := 0xFFF#12 }) =
    some (.memoryOutOfRange, some 0x1000) := by decide

-- T140
theorem test_cls : (fun t : State => (t.fb, presents t, t.reg 0xF#4))
    (stepWord 0x00E0 { withReg 0xF#4 0x01#8 with fb := Framebuffer.setPixel Framebuffer.clear 31 63 true }) =
    (Framebuffer.clear, 1, 0x01#8) := by decide
-- a failing sink: 60_exceptions.md R318
theorem test_cls_sink_fails :
    (match step ({ plain [] with host := { HostInputs.empty with sink := [.failure], ticks := [0] } }.withFetchWord 16 0x00E0) with
    | .next t => some (t.phase, t.fatal, t.out)
    | _ => none) = some (.stopped, none, [.present Framebuffer.clear, .hostFailure .renderSink]) := by decide
-- T142 with T152's sprite, T144
theorem test_drw_wraps_origin_and_clips : (fun t : State => (Framebuffer.pixel t.fb 0 62, Framebuffer.pixel t.fb 0 63,
      Framebuffer.pixel t.fb 0 0, Framebuffer.pixel t.fb 1 0, t.reg 0xF#4, presents t))
    (stepWord 0xD011 (boot false false false [0x7E#8, 0x20#8] [0xF0#8])) = (true, true, false, false, 0x00#8, 1) := by decide
theorem test_drw_collides : (fun t : State => (Framebuffer.pixel t.fb 0 0, t.reg 0xF#4))
    (stepWord 0xD011 { boot false false false [] [0x80#8] with fb := Framebuffer.setPixel Framebuffer.clear 0 0 true }) =
    (false, 0x01#8) := by decide

-- T160, T165
theorem test_skp : (stepWord 0xE39E (answering (.char 'a') (withReg 0x3#4 0x0A#8))).pc = 0x204#12 := by decide
theorem test_skp_no_mask : (stepWord 0xE39E (answering (.char 'a') (withReg 0x3#4 0x1A#8))).pc = 0x202#12 := by decide
-- T163, T164
theorem test_sknp_none : (stepWord 0xE3A1 (answering .nothing (withReg 0x3#4 0x0A#8))).pc = 0x204#12 := by decide
theorem test_sknp_key : (stepWord 0xE3A1 (answering (.char 'A') (withReg 0x3#4 0x0A#8))).pc = 0x202#12 := by decide
-- T167, T169
theorem test_ldVxK : (stepWord 0xF50A (answering (.char 'c') (withReg 0x5#4 0x77#8))).reg 0x5#4 = 0x0C#8 := by decide
theorem test_ldVxK_failure : (fun t : State => (t.pc, t.fatal, t.phase, t.out))
    (stepWord 0xF50A (answering .failure (plain []))) = (0x202#12, none, .stopped, [.hostFailure .keyRead]) := by decide
-- T170
theorem test_key_codes : ['b', 'B', '7', 'g', ' '].map keyOfChar = [.key 0xB#4, .key 0xB#4, .key 0x7#4, .noKey, .noKey] := by
  decide
-- 10_state.md R48 (c): the request stays, and a later step completes it (T168's value)
theorem test_key_wait : (stepWord 0xF50A (answering .notYet (plain []))).keyWait = some (.bind 0x5#4) := by decide
theorem test_key_wait_ends : (fun t : State => (t.reg 0x5#4, t.pc, t.keyWait))
    (stepped (answering .nothing { withReg 0x5#4 0x77#8 with keyWait := some (.bind 0x5#4), pc := 0x202#12 })) =
    (0x77#8, 0x202#12, none) := by decide
-- T171, T172, T173
theorem test_ldVxDt : (stepWord 0xF307 { plain [] with DT := 0x1E#8 }).reg 0x3#4 = 0x1E#8 := by decide
theorem test_ldDtVx : (stepWord 0xF015 (plain [0x03#8])).DT = 0x03#8 := by decide
theorem test_ldStVx : (stepWord 0xF018 (plain [0x10#8])).ST = 0x10#8 := by decide
-- T174, T175, T180
theorem test_tick_saturates : (fun t : State => (t.DT, t.ST)) { plain [] with DT := 0x05#8 }.tick = (0x04#8, 0x00#8) := by decide
theorem test_tick_both : (fun t : State => (t.DT, t.ST)) { plain [] with DT := 0x01#8, ST := 0x01#8 }.tick =
    (0x00#8, 0x00#8) := by decide
theorem test_tick_not_enabled : { plain [] with DT := 0x05#8, started := false }.tick.DT = 0x05#8 := by decide
-- T177's fifth value, the ticks of one step
theorem test_ticks_of_a_step :
    (match step ({ plain [] with DT := 0x03#8, host := { HostInputs.empty with ticks := [5] } }.withFetchWord 16 0x1200) with
    | .next t => some t.DT
    | _ => none) = some 0x00#8 := by decide

-- T188, T189, run start R347, stop R341
theorem test_load_one_byte : (fun t : State => (t.phase, t.mem, t.out)) (stepped (offering [0x12#8] State.reset)) =
    (.loaded, [(0x200, 0x12#8)], [.loadAccepted]) := by decide
theorem test_load_too_long : (stepped (offering (List.replicate 3585 0x01#8) State.reset)).phase = .constructed := by
  have rejected : ∀ image, imageFits image = false → (stepped (offering image State.reset)).phase = .constructed := by
    intro image h
    simp [stepped, step, offering, State.reset, State.offerImage, State.loadImage, HostInputs.takeImage, h]
  apply rejected
  simp only [imageFits, List.length_replicate]
  decide
theorem test_run_start : (fun t : State => (t.started, t.phase)) (stepped { State.reset with phase := .loaded }) =
    (true, .running) := by decide
theorem test_stopped_has_no_step : step { plain [] with phase := .stopped } = .fault .stopped := rfl
theorem test_reset_runs_word : (match step (State.reset.withFetchWord 16 0xA123) with
    | .next t => some t.I
    | _ => none) = some 0x123#12 := by decide

/-! ## Witnesses: for each obligation with hypotheses, states and operands that meet them, clause by clause -/

/-- A running block with a zero word at 0x200, its quirks off. -/
def running : State := plain []

/-- The running block with a request pending and no reply yet. -/
def waiting : State := answering .notYet { running with keyWait := some (.bind 0x5#4) }

theorem test_running_inv : running.Inv :=
  { memory := Memory.wf_nil
    gate := by decide
    latch := by decide
    waiting := by decide
    reports := by decide
    reported := fun r => ⟨fun h => absurd h List.not_mem_nil, fun h => absurd h (by simp [running, plain, boot, State.reset])⟩
    depth := fun _ _ h => absurd h (by simp [running, plain, boot]) }

theorem test_reset_unstarted (p : Phase) : ({ State.reset with phase := p } : State).Unstarted :=
  { regs := rfl, pc := rfl, index := rfl, stack := rfl, screen := rfl, timers := ⟨rfl, rfl⟩, gate := rfl,
    lowMemory := fun _ _ => rfl }

theorem test_witness_opcode_row : (opcodeMap.any fun r => r.selects 0x8AB4#16) = true := by decide
theorem test_witness_no_opcode_row : (opcodeMap.all fun r => !r.selects 0x8ABF#16) = true := by decide

theorem test_witness_LoadAcceptsFittingImage :
    ∃ s : State, s.phase = .constructed ∧ s.mem.wf ∧ s.host.takeImage.1.length = 3584 :=
  ⟨offering (List.replicate 3584 0x01#8) State.reset, rfl, Memory.wf_nil, List.length_replicate⟩
theorem test_witness_LoadRejectsOversizedImage :
    ∃ s : State, s.phase = .constructed ∧ s.host.takeImage.1.length = 3585 :=
  ⟨offering (List.replicate 3585 0x01#8) State.reset, rfl, List.length_replicate⟩
theorem test_witness_phases : State.reset.phase = .constructed ∧ ({ State.reset with phase := .loaded } : State).phase = .loaded ∧
    running.phase = .running ∧ ({ running with phase := .stopped } : State).phase = .stopped := by decide
theorem test_witness_StepKeepsInvariant : ∃ s t : State, s.Inv ∧ step s = .next t := by
  refine ⟨running, (cpuStep running |> thenTimers |> fun o => match o with
    | .next t => t
    | _ => running), test_running_inv, ?_⟩
  rfl
theorem test_witness_StateUnstartedUntilRun_load :
    ∃ s t : State, s.mem.wf ∧ s.phase = .constructed ∧ s.Unstarted ∧ step s = .next t :=
  ⟨State.reset, State.reset.offerImage, Memory.wf_nil, rfl, test_reset_unstarted _, rfl⟩
theorem test_witness_StateUnstartedUntilRun_start :
    ∃ s t : State, s.mem.wf ∧ s.phase = .loaded ∧ s.Unstarted ∧ step s = .next t :=
  ⟨{ State.reset with phase := .loaded }, _, Memory.wf_nil, rfl, test_reset_unstarted _, rfl⟩

/-- The running block at an address, with a word there. -/
def runningAt (pc : Addr) (w : Word) : State := { running with pc := pc, mem := placeWord [] pc.toNat w }

theorem test_witness_StepRunsDecodedInstruction : ∃ (s : State) (w : Word) (i : Instr),
    s.phase = .running ∧ s.keyWait = none ∧ s.pc.toNat + 2 = 0xFFF ∧
      w = wordOfBytes (Memory.read s.mem s.pc.toNat) (Memory.read s.mem (s.pc.toNat + 1)) ∧ decode w = .known i :=
  ⟨runningAt 0xFFD#12 0x8124#16, 0x8124#16, .addReg 0x1#4 0x2#4, by decide⟩
theorem test_witness_FetchStopsAtTopOfMemory (pc : Addr) (_ : pc = 0xFFE#12 ∨ pc = 0xFFF#12) :
    ∃ s : State, s.phase = .running ∧ s.keyWait = none ∧ s.pc = pc := ⟨{ running with pc := pc }, rfl, rfl, rfl⟩
theorem test_witness_UnknownWordStopsRun : ∃ (s : State) (w : Word),
    s.phase = .running ∧ s.keyWait = none ∧ s.pc.toNat + 2 = 0xFFF ∧
      w = wordOfBytes (Memory.read s.mem s.pc.toNat) (Memory.read s.mem (s.pc.toNat + 1)) ∧ decode w = .unknown w :=
  ⟨runningAt 0xFFD#12 0x8ABF#16, 0x8ABF#16, by decide⟩
theorem test_witness_FinishedProgramStaysFinished : ∃ s : State,
    s.Finished ∧ s.phase = .running ∧ s.keyWait = none ∧ s.pc.toNat + 2 = 0xFFF := by
  refine ⟨runningAt 0xFFD#12 0x1FFD#16, ?_, by decide⟩
  unfold State.Finished
  decide

/-- The state an instruction leaves, as the execute part alone. -/
def after (i : Instr) (s : State) : State :=
  match exec i s with
  | .next t => t
  | _ => State.reset

theorem test_witness_InstructionsChangeOnlyTheirPieces : ∃ (i : Instr) (s t : State),
    exec i s = .next t ∧ t.fatal = none :=
  ⟨.load 0xF#4, running, after (.load 0xF#4) running, rfl, by decide⟩
theorem test_witness_OnlyDestinationsAndFlagChange : ∃ (i : Instr) (s t : State) (k : Nibble),
    exec i s = .next t ∧ t.fatal = none ∧ mayWriteReg i k = false :=
  ⟨.load 0xE#4, running, after (.load 0xE#4) running, 0xF#4, rfl, by decide⟩
theorem test_witness_FatalCausesAreListed : ∃ (i : Instr) (s t : State),
    exec i s = .next t ∧ s.fatal = none ∧ t.fatal ≠ none :=
  ⟨.ret, running, after .ret running, rfl, rfl, by decide⟩
theorem test_witness_CyclesCommuteWithTicks : ∃ (i : Instr) (s t : State),
    (∀ x, i ≠ .ldVxDt x ∧ i ≠ .ldDtVx x ∧ i ≠ .ldStVx x) ∧ s.phase = .running ∧ exec i s = .next t ∧ t.phase = .running :=
  ⟨.ldI 0x300#12, { running with DT := 0x01#8 }, _, by decide, rfl, rfl, rfl⟩
theorem test_witness_enabled : running.started = true ∧ running.phase = .running := by decide
theorem test_witness_not_enabled : ¬ (State.reset.started = true ∧ State.reset.phase = .running) := by decide
theorem test_witness_TimersRiseOnlyByWrites : ∃ s t : State, s.phase = .running ∧ step s = .next t ∧ t.phase = .running ∧
    s.keyWait = none ∧
    ∀ x, decode (wordOfBytes (Memory.read s.mem s.pc.toNat) (Memory.read s.mem (s.pc.toNat + 1))) ≠ .known (.ldDtVx x) ∧
      decode (wordOfBytes (Memory.read s.mem s.pc.toNat) (Memory.read s.mem (s.pc.toNat + 1))) ≠ .known (.ldStVx x) := by
  refine ⟨runningAt 0x200#12 0xA123#16, _, rfl, rfl, by decide, by decide, by decide⟩
theorem test_witness_TimersRiseOnlyByWrites_waiting : waiting.phase = .running ∧ waiting.keyWait ≠ none ∧
    (stepped waiting).phase = .running := by decide

theorem test_witness_ReturnPopsPc : ∃ s : State, s.stack = [0x204#12] ++ [0x206#12] :=
  ⟨{ running with stack := [0x204#12, 0x206#12] }, rfl⟩
theorem test_witness_ReturnPopsPc_empty : running.stack = [] := rfl
theorem test_witness_CallPushesAdvancedPc : running.config.stackLimit ≠ some running.stack.length := by decide
theorem test_witness_CallPushesAdvancedPc_limit : ∃ s : State, s.config.stackLimit = some s.stack.length :=
  ⟨{ running with config := { running.config with stackLimit := some 0 } }, rfl⟩
theorem test_witness_JumpWithOffsetAddsRegister : ∃ (n : Addr) (s : State), n.toNat + (s.reg 0x0#4).toNat = 0xFFF :=
  ⟨0xFFE#12, plain [0x01#8], by decide⟩
theorem test_witness_JumpWithOffsetAddsRegister_over : ∃ (n : Addr) (s : State), n.toNat + (s.reg 0x0#4).toNat = 0x1000 :=
  ⟨0xFFF#12, plain [0x01#8], by decide⟩
theorem test_witness_SkipsAddTwoOnCondition : ∃ s : State, s.pc.toNat + 2 = 0xFFF := ⟨{ running with pc := 0xFFD#12 }, rfl⟩
theorem test_witness_TakenSkipPastTopStops : ∃ (x : Nibble) (nn : Byte) (s : State), s.pc.toNat + 2 = 0x1000 ∧ s.reg x = nn :=
  ⟨0x1#4, 0x00#8, { running with pc := 0xFFE#12 }, by decide⟩
theorem test_witness_TakenSkipPastTopStops_not : ∃ (x y : Nibble) (nn : Byte) (s : State),
    s.pc.toNat + 2 = 0x1000 ∧ s.reg x ≠ nn ∧ s.reg x ≠ s.reg y :=
  ⟨0x0#4, 0x1#4, 0x00#8, { plain [0x01#8] with pc := 0xFFE#12 }, by decide⟩
theorem test_witness_ShiftsMoveOneBit : ∃ (x y : Nibble) (s : State) (v : Nat),
    v = (if s.config.shiftCopy then s.reg y else s.reg x).toNat ∧ s.config.shiftCopy = true :=
  ⟨0x1#4, 0x2#4, boot true false false [0x00#8, 0x01#8, 0x80#8] [], 0x80, by decide⟩
theorem test_witness_AddIndexAddsRegister : ∃ (x : Nibble) (s : State), s.I.toNat + (s.reg x).toNat = 0xFFF :=
  ⟨0x0#4, { plain [0x01#8] with I := 0xFFE#12 }, by decide⟩
theorem test_witness_AddIndexAddsRegister_over : ∃ (x : Nibble) (s : State), s.I.toNat + (s.reg x).toNat = 0x1000 :=
  ⟨0x0#4, { plain [0x01#8] with I := 0xFFF#12 }, by decide⟩
theorem test_witness_DecimalSplitStoresDigits : ∃ s : State, s.mem.wf ∧ s.I.toNat + 2 = 0xFFF :=
  ⟨{ running with I := 0xFFD#12 }, Memory.wf_nil, rfl⟩
theorem test_witness_DecimalSplitStoresDigits_over : ∃ s : State, s.mem.wf ∧ s.I.toNat + 2 = 0x1000 :=
  ⟨{ running with I := 0xFFE#12 }, Memory.wf_nil, rfl⟩
theorem test_witness_blocks : ∃ (x : Nibble) (s : State), s.mem.wf ∧
    s.I.toNat + x.toNat + (if s.config.indexAdvance then 1 else 0) = 0xFFF ∧ s.config.indexAdvance = true :=
  ⟨0xF#4, { boot false false true [] [] with I := 0xFEF#12 }, Memory.wf_nil, by decide⟩
theorem test_witness_blocks_no_advance : ∃ (x : Nibble) (s : State), s.mem.wf ∧
    s.I.toNat + x.toNat + (if s.config.indexAdvance then 1 else 0) = 0xFFF ∧ s.config.indexAdvance = false :=
  ⟨0xF#4, { running with I := 0xFF0#12 }, Memory.wf_nil, by decide⟩
theorem test_witness_BlockPastTopStops : ∃ (x : Nibble) (s : State), s.I.toNat + x.toNat = 0x1000 :=
  ⟨0x1#4, { running with I := 0xFFF#12 }, by decide⟩
theorem test_witness_BlockPastTopStops_index : ∃ (x : Nibble) (s : State),
    s.I.toNat + x.toNat = 0xFFF ∧ s.config.indexAdvance = true :=
  ⟨0x0#4, { boot false false true [] [] with I := 0xFFF#12 }, by decide⟩
theorem test_witness_sink : ∃ s t : State, s.host.takeSink.1 = .ok ∧ t.host.takeSink.1 = .failure :=
  ⟨{ running with host := { HostInputs.empty with sink := [.ok] } },
    { running with host := { HostInputs.empty with sink := [.failure] } }, rfl, rfl⟩
theorem test_witness_DrawBlitsAndPresents : ∃ (n : Nibble) (s : State), s.I.toNat + n.toNat = 0x1000 :=
  ⟨0xF#4, { running with I := 0xFF1#12 }, by decide⟩
theorem test_witness_DrawPastTopStops : ∃ (n : Nibble) (s : State), s.I.toNat + n.toNat = 0x1001 :=
  ⟨0xF#4, { running with I := 0xFF2#12 }, by decide⟩
theorem test_witness_BlitTwiceRestores : (blit Framebuffer.clear 60 31 [0xFF#8]).2 = false := by decide
theorem test_witness_CharactersMapToKeyCodes :
    ¬ ('0' ≤ 'g' ∧ 'g' ≤ '9') ∧ ¬ ('a' ≤ 'g' ∧ 'g' ≤ 'f') ∧ ¬ ('A' ≤ 'g' ∧ 'g' ≤ 'F') := by decide
theorem test_witness_KeySkipsCompareAnswer : ∃ (x : Nibble) (s : State) (k : Nibble),
    answerOf s.host.takeKey.1 = some (.key k) ∧ s.pc.toNat + 2 = 0xFFF ∧ k.toNat = (s.reg x).toNat :=
  ⟨0x3#4, answering (.char 'f') { withReg 0x3#4 0x0F#8 with pc := 0xFFD#12 }, 0xF#4, by decide⟩
theorem test_witness_KeySkipsCompareAnswer_no : ∃ (x : Nibble) (s : State) (k : Nibble),
    answerOf s.host.takeKey.1 = some (.key k) ∧ s.pc.toNat + 2 = 0xFFF ∧ k.toNat ≠ (s.reg x).toNat :=
  ⟨0x3#4, answering (.char 'f') { withReg 0x3#4 0x1F#8 with pc := 0xFFD#12 }, 0xF#4, by decide⟩
theorem test_witness_TakenKeySkipPastTopStops : ∃ (x : Nibble) (s : State) (k : Nibble),
    answerOf s.host.takeKey.1 = some (.key k) ∧ s.pc.toNat + 2 = 0x1000 ∧ k.toNat = (s.reg x).toNat :=
  ⟨0x3#4, answering (.char 'f') { withReg 0x3#4 0x0F#8 with pc := 0xFFE#12 }, 0xF#4, by decide⟩
theorem test_witness_TakenKeySkipPastTopStops_not : ∃ s : State,
    answerOf s.host.takeKey.1 = some .noKey ∧ s.pc.toNat + 2 = 0x1000 :=
  ⟨answering .nothing { running with pc := 0xFFE#12 }, by decide⟩
theorem test_witness_KeyReadBindsOnlyAKey : ∃ s t : State,
    answerOf s.host.takeKey.1 = some (.key 0x0#4) ∧ answerOf t.host.takeKey.1 = some .noKey :=
  ⟨answering (.char '0') running, answering (.char 'g') running, by decide⟩
theorem test_witness_KeyFailureStopsRun : (answering .failure running).host.takeKey.1 = .failure := rfl
theorem test_witness_UnansweredKeyRequestWaits : waiting.phase = .running ∧ waiting.host.takeKey.1 = .notYet ∧
    waiting.keyWait = some (.bind 0x5#4) := by decide

end Sys2Proof.Tests
end

section
/-! Frames: `Keeps` composes, and each plain update of one field leaves every other piece alone. -/

namespace Sys2Proof.Machine

theorem Part.same_refl (p : Part) (s : State) : p.same s s := by
  cases p <;> simp [Part.same]

theorem Part.same_trans (p : Part) {s t u : State} (h₁ : p.same s t) (h₂ : p.same t u) : p.same s u := by
  cases p <;> simp_all [Part.same]

theorem keeps_refl (c : List Part) (s : State) : Keeps c s s := fun p _ => p.same_refl s

theorem Keeps.trans {c : List Part} {s t u : State} (h₁ : Keeps c s t) (h₂ : Keeps c t u) : Keeps c s u :=
  fun p hp => p.same_trans (h₁ p hp) (h₂ p hp)

theorem Keeps.mono {c d : List Part} {s t : State} (h : Keeps c s t) (hcd : c ⊆ d) : Keeps d s t :=
  fun p hp => h p (fun hc => hp (hcd hc))

theorem keeps_setMem (s : State) (m : Memory) : Keeps [.mem] s { s with mem := m } := by
  intro p hp
  cases p <;> simp_all [Part.same, State.reg]

theorem keeps_setV (s : State) (V : Vector Byte 16) : Keeps [.regs] s { s with V := V } := by
  intro p hp
  cases p <;> simp_all [Part.same]

theorem keeps_setPc (s : State) (a : Addr) : Keeps [.pc] s { s with pc := a } := by
  intro p hp
  cases p <;> simp_all [Part.same, State.reg]

theorem keeps_setIndex (s : State) (a : Addr) : Keeps [.index] s { s with I := a } := by
  intro p hp
  cases p <;> simp_all [Part.same, State.reg]

theorem keeps_setStackPc (s : State) (stack : List Addr) (a : Addr) :
    Keeps [.stack, .pc] s { s with stack := stack, pc := a } := by
  intro p hp
  cases p <;> simp_all [Part.same, State.reg]

theorem keeps_setFb (s : State) (fb : Framebuffer) : Keeps [.fb] s { s with fb := fb } := by
  intro p hp
  cases p <;> simp_all [Part.same, State.reg]

theorem keeps_setDelay (s : State) (v : Byte) : Keeps [.delay] s { s with DT := v } := by
  intro p hp
  cases p <;> simp_all [Part.same, State.reg]

theorem keeps_setBuzzer (s : State) (v : Byte) : Keeps [.buzzer] s { s with ST := v } := by
  intro p hp
  cases p <;> simp_all [Part.same, State.reg]

theorem keeps_setHost (s : State) (h : HostInputs) : Keeps [.host] s { s with host := h } := by
  intro p hp
  cases p <;> simp_all [Part.same, State.reg]

theorem keeps_setOutHost (s : State) (out : List Output) (h : HostInputs) :
    Keeps [.out, .host] s { s with out := out, host := h } := by
  intro p hp
  cases p <;> simp_all [Part.same, State.reg]

theorem keeps_setKeyWaitHost (s : State) (k : Option KeyRequest) (h : HostInputs) :
    Keeps [.keyWait, .host] s { s with keyWait := k, host := h } := by
  intro p hp
  cases p <;> simp_all [Part.same, State.reg]

/-- The pieces a host-failure stop changes (60_exceptions.md R318). -/
def hostStopParts : List Part := [.phase, .keyWait, .out]

theorem State.hostFailure_keeps (s : State) (k : HostFailureKind) : Keeps hostStopParts s (s.hostFailure k) := by
  intro p hp
  cases p <;> simp_all [Part.same, State.reg, hostStopParts]

end Sys2Proof.Machine
end

section
/-! `Carries`: what the life of the block needs of every computation inside a step, before any stop. -/

namespace Sys2Proof.Machine

/-- `u` is `s` further on in the same run: the gate, the latch, the phase and the configuration stand, no stop is
reported, and Memory and the stack stay within their bounds. -/
structure Carries (s u : State) : Prop where
  started : u.started = s.started
  fatal : u.fatal = s.fatal
  phase : u.phase = s.phase
  config : u.config = s.config
  memory : s.mem.wf → u.mem.wf
  depth : ∀ n, s.config.stackLimit = some n → s.stack.length ≤ n → u.stack.length ≤ n
  outputs : ∃ new, u.out = s.out ++ new ∧ ∀ o ∈ new, o.isReport = false

/-- A computation that leaves Memory, the stack and the outputs alone, with all that `Carries` keeps equal. -/
theorem carries_of_eq {s u : State} (hstarted : u.started = s.started) (hfatal : u.fatal = s.fatal)
    (hphase : u.phase = s.phase) (hconfig : u.config = s.config) (hmem : u.mem = s.mem) (hstack : u.stack = s.stack)
    (hout : u.out = s.out) : Carries s u where
  started := hstarted
  fatal := hfatal
  phase := hphase
  config := hconfig
  memory := fun h => hmem ▸ h
  depth := fun _ _ h => hstack ▸ h
  outputs := ⟨[], by simp [hout]⟩

theorem carries_refl (s : State) : Carries s s := carries_of_eq rfl rfl rfl rfl rfl rfl rfl

theorem Carries.trans {s t u : State} (h₁ : Carries s t) (h₂ : Carries t u) : Carries s u where
  started := h₂.started.trans h₁.started
  fatal := h₂.fatal.trans h₁.fatal
  phase := h₂.phase.trans h₁.phase
  config := h₂.config.trans h₁.config
  memory := fun h => h₂.memory (h₁.memory h)
  depth := fun n hn h => h₂.depth n (by rw [h₁.config, hn]) (h₁.depth n hn h)
  outputs := by
    obtain ⟨new₁, hout₁, hquiet₁⟩ := h₁.outputs
    obtain ⟨new₂, hout₂, hquiet₂⟩ := h₂.outputs
    refine ⟨new₁ ++ new₂, by rw [hout₂, hout₁, List.append_assoc], fun o ho => ?_⟩
    exact (List.mem_append.mp ho).elim (hquiet₁ o) (hquiet₂ o)

theorem carries_setMem (s : State) (m : Memory) (h : s.mem.wf → m.wf) : Carries s { s with mem := m } :=
  { carries_refl s with memory := h }

theorem carries_push (s : State) (a pc : Addr) (h : s.config.stackLimit ≠ some s.stack.length) :
    Carries s { s with stack := s.stack ++ [a], pc := pc } :=
  { carries_refl s with
    depth := fun n hn hle => by
      have hne : s.stack.length ≠ n := fun heq => h (heq ▸ hn)
      simp only [List.length_append, List.length_cons, List.length_nil]
      omega }

theorem carries_pop (s : State) (rest : List Addr) (a pc : Addr) (h : s.stack = rest ++ [a]) :
    Carries s { s with stack := rest, pc := pc } :=
  { carries_refl s with
    depth := fun n _ hle => by
      simp only [h, List.length_append] at hle
      exact Nat.le_of_add_right_le hle }

theorem carries_shown (s : State) (fb : Framebuffer) (h : HostInputs) :
    Carries s { s with out := s.out ++ [.present fb], host := h } :=
  { carries_refl s with outputs := ⟨[.present fb], rfl, by simp [Output.isReport]⟩ }

/-- A checked run of writes keeps the canonical form (20_memory.md R71). -/
theorem writeBlock_wf (bs : List Byte) (m m' : Memory) (a : Nat) (hm : m.wf) (h : writeBlock m a bs = .ok m') :
    m'.wf := by
  induction bs generalizing m a with
  | nil => exact Except.ok.inj h ▸ hm
  | cons b bs ih =>
    by_cases ha : a ≤ maxAddr
    · simp only [writeBlock, writeByte, if_pos ha] at h
      exact ih _ _ (Memory.wf_write m hm a ha b) h
    · simp [writeBlock, writeByte, ha] at h

end Sys2Proof.Machine
end

section
/-! `Runs` and `Ends`: what the execute part of an instruction can do, said once. It computes a state inside the
instruction's frame, and the cycle goes on there or stops there. -/

namespace Sys2Proof.Machine

/-- `u` comes from `s` by what instruction `i` may compute. -/
structure Runs (i : Instr) (s u : State) : Prop where
  carries : Carries s u
  frame : Keeps (mayChange i) s u
  regs : ∀ k, mayWriteReg i k = false → u.reg k = s.reg k

/-- `t` is `u` going on, or the fatal stop or, where the pieces `c` allow one, the host-failure stop of `u`. -/
inductive Ends (c : List Part) (u : State) : State → Prop where
  | goesOn : Ends c u u
  | fatal (e : Raised) : Ends c u (raiseFatal e u)
  | hostFailure (k : HostFailureKind) (h : hostStopParts ⊆ c) : Ends c u (u.hostFailure k)

theorem Ends.mono {c d : List Part} {u t : State} (h : Ends c u t) (hcd : c ⊆ d) : Ends d u t := by
  cases h with
  | goesOn => exact .goesOn
  | fatal e => exact .fatal e
  | hostFailure k h => exact .hostFailure k (fun _ hp => hcd (h hp))

/-- `t` is an end of the execute part of `i` begun in `s`. -/
def Ended (i : Instr) (s t : State) : Prop := ∃ u, Runs i s u ∧ Ends (mayChange i) u t

variable {i : Instr} {s t u : State}

theorem runs_refl (i : Instr) (s : State) : Runs i s s := ⟨carries_refl s, keeps_refl _ s, fun _ _ => rfl⟩

theorem Runs.trans (h₁ : Runs i s t) (h₂ : Runs i t u) : Runs i s u where
  carries := h₁.carries.trans h₂.carries
  frame := h₁.frame.trans h₂.frame
  regs := fun k hk => (h₂.regs k hk).trans (h₁.regs k hk)

/-- A computation that leaves the registers alone. -/
theorem runs_of_regs_eq {c : List Part} (hcarries : Carries s u) (hkeeps : Keeps c s u) (hc : c ⊆ mayChange i)
    (hV : u.V = s.V) : Runs i s u :=
  ⟨hcarries, hkeeps.mono hc, fun k _ => State.reg_congr s u hV k⟩

/-- A computation that changes the registers alone. -/
theorem runs_setV (s : State) (V : Vector Byte 16) (hc : Part.regs ∈ mayChange i)
    (hV : ∀ k, mayWriteReg i k = false → ({ s with V := V } : State).reg k = s.reg k) : Runs i s { s with V := V } :=
  ⟨carries_of_eq rfl rfl rfl rfl rfl rfl rfl, (keeps_setV s V).mono (by simpa using hc), hV⟩

theorem runs_setReg (s : State) (x : Nibble) (v : Byte) (hc : Part.regs ∈ mayChange i) (hx : mayWriteReg i x = true) :
    Runs i s (s.setReg x v) :=
  runs_setV s _ hc fun k hk => State.reg_setReg_of_ne s x k v (by rintro rfl; simp [hx] at hk)

theorem runs_setResultAndFlag (s : State) (x : Nibble) (r f : Byte) (hc : Part.regs ∈ mayChange i)
    (hx : mayWriteReg i x = true) (hf : mayWriteReg i flagIndex = true) : Runs i s (s.setResultAndFlag x r f) :=
  (runs_setReg s x r hc hx).trans (runs_setReg _ flagIndex f hc hf)

theorem runs_setPc (s : State) (a : Addr) (hc : Part.pc ∈ mayChange i) : Runs i s { s with pc := a } :=
  runs_of_regs_eq (carries_of_eq rfl rfl rfl rfl rfl rfl rfl) (keeps_setPc s a) (by simpa using hc) rfl

theorem runs_setIndex (s : State) (a : Addr) (hc : Part.index ∈ mayChange i) : Runs i s { s with I := a } :=
  runs_of_regs_eq (carries_of_eq rfl rfl rfl rfl rfl rfl rfl) (keeps_setIndex s a) (by simpa using hc) rfl

theorem runs_setDelay (s : State) (v : Byte) (hc : Part.delay ∈ mayChange i) : Runs i s { s with DT := v } :=
  runs_of_regs_eq (carries_of_eq rfl rfl rfl rfl rfl rfl rfl) (keeps_setDelay s v) (by simpa using hc) rfl

theorem runs_setBuzzer (s : State) (v : Byte) (hc : Part.buzzer ∈ mayChange i) : Runs i s { s with ST := v } :=
  runs_of_regs_eq (carries_of_eq rfl rfl rfl rfl rfl rfl rfl) (keeps_setBuzzer s v) (by simpa using hc) rfl

theorem runs_setFb (s : State) (fb : Framebuffer) (hc : Part.fb ∈ mayChange i) : Runs i s { s with fb := fb } :=
  runs_of_regs_eq (carries_of_eq rfl rfl rfl rfl rfl rfl rfl) (keeps_setFb s fb) (by simpa using hc) rfl

theorem runs_setHost (s : State) (h : HostInputs) (hc : Part.host ∈ mayChange i) : Runs i s { s with host := h } :=
  runs_of_regs_eq (carries_of_eq rfl rfl rfl rfl rfl rfl rfl) (keeps_setHost s h) (by simpa using hc) rfl

theorem runs_setKeyWaitHost (s : State) (k : Option KeyRequest) (h : HostInputs)
    (hc : [.keyWait, .host] ⊆ mayChange i) : Runs i s { s with keyWait := k, host := h } :=
  runs_of_regs_eq (carries_of_eq rfl rfl rfl rfl rfl rfl rfl) (keeps_setKeyWaitHost s k h) hc rfl

theorem runs_writeBlock {m : Memory} {a : Nat} {bs : List Byte} (hc : Part.mem ∈ mayChange i)
    (h : writeBlock s.mem a bs = .ok m) : Runs i s { s with mem := m } :=
  runs_of_regs_eq (carries_setMem s m fun hm => writeBlock_wf bs s.mem m a hm h) (keeps_setMem s m)
    (by simpa using hc) rfl

theorem runs_skipIf {c : Bool} (hc : Part.pc ∈ mayChange i) (h : skipIf c s = .ok u) : Runs i s u := by
  rcases skipIf_cases c s with ⟨-, hs⟩ | ⟨-, -, a, -, hs⟩ | ⟨-, -, hs⟩ <;> rw [hs] at h <;> cases h
  · exact runs_refl i s
  · exact runs_setPc s a hc

theorem runs_advanceIndex {x : Nibble} (hc : Part.index ∈ mayChange i) (h : advanceIndex s x = .ok u) :
    Runs i s u := by
  rcases advanceIndex_cases s x with ⟨-, hs⟩ | ⟨-, -, a, -, hs⟩ | ⟨-, -, hs⟩ <;> rw [hs] at h <;> cases h
  · exact runs_refl i s
  · exact runs_setIndex s a hc

theorem Runs.ended (h : Runs i s t) : Ended i s t := ⟨t, h, .goesOn⟩

/-- What ends from a state `i` may compute ends from where `i` began. -/
theorem Runs.ended_trans (h₁ : Runs i s u) (h₂ : Ended i u t) : Ended i s t := by
  obtain ⟨v, hruns, hends⟩ := h₂
  exact ⟨v, h₁.trans hruns, hends⟩

/-- The end of a cycle that may raise: it remains to say where it ends when nothing is raised. -/
theorem ended_settle {r : Except Raised State} (h : ∀ u, r = .ok u → Ended i s u) : Ended i s (settle s r) := by
  rcases settle_cases s r with ⟨u, hr, hs⟩ | ⟨e, -, hs⟩
  · exact hs ▸ h u hr
  · exact hs ▸ ⟨s, runs_refl i s, .fatal e⟩

theorem ended_present (s : State) (hc : [.out, .host] ⊆ mayChange i) (hstop : hostStopParts ⊆ mayChange i) :
    Ended i s s.present := by
  have hshown : Runs i s { s with out := s.out ++ [.present s.fb], host := s.host.takeSink.2 } :=
    runs_of_regs_eq (carries_shown s s.fb _) (keeps_setOutHost s _ _) hc rfl
  rcases present_cases s with ⟨-, hp⟩ | ⟨-, hp⟩ <;> rw [hp]
  · exact hshown.ended
  · exact ⟨_, hshown, .hostFailure .renderSink hstop⟩

/-- A key request ends within the frame of `i` when the completion of its answer does. -/
theorem ended_askKey {r : KeyRequest} (s : State) (hc : [.keyWait, .host] ⊆ mayChange i)
    (hstop : hostStopParts ⊆ mayChange i) (hfinish : ∀ a t u, finishKey r a t = .ok u → Runs i t u) :
    Ended i s (askKey r s) := by
  have hasked := fun k => runs_setKeyWaitHost s k s.host.takeKey.2 hc
  rcases askKey_cases r s with ⟨a, t, hf, h⟩ | ⟨a, e, -, h⟩ | ⟨-, h⟩ | ⟨-, h⟩ <;> rw [h]
  · exact ((hasked none).trans (hfinish a _ t hf)).ended
  · exact ⟨_, hasked none, .fatal e⟩
  · exact ⟨_, hasked none, .hostFailure .keyRead hstop⟩
  · exact (hasked (some r)).ended

end Sys2Proof.Machine
end

section
/-! Every instruction ends within its frame. -/

namespace Sys2Proof.Machine

variable {i : Instr} {s u : State}

/-- A load of a block changes no register above the last one loaded. -/
theorem reg_loadRegs_of_lt (s : State) (bs : List Byte) (k : Nibble) (h : bs.length ≤ k.toNat) :
    ({ s with V := loadRegs s.V 0 bs } : State).reg k = s.reg k := by
  simp only [State.reg, loadRegs_getElem]
  rw [dif_neg (by omega)]

theorem readBlock_length {m : Memory} {a k : Nat} {bs : List Byte} (h : readBlock m a k = .ok bs) : bs.length = k := by
  induction k generalizing a bs with
  | zero => cases h; rfl
  | succ k ih =>
    by_cases ha : a ≤ maxAddr
    · simp only [readBlock, readByte, if_pos ha] at h
      cases hrest : readBlock m (a + 1) k with
      | error e => simp [hrest] at h
      | ok rest =>
        simp only [hrest, Except.ok.injEq] at h
        rw [← h, List.length_cons, ih hrest]
    · simp [readBlock, readByte, ha] at h

/-- The instruction that makes a key request. -/
def KeyRequest.instr : KeyRequest → Instr
  | .skipIfPressed x => .skp x
  | .skipIfNotPressed x => .sknp x
  | .bind x => .ldVxK x

@[simp] theorem exec_instr (r : KeyRequest) (s : State) : exec r.instr s = .next (askKey r s) := by
  cases r <;> rfl

theorem runs_finishKey (r : KeyRequest) (a : KeyAnswer) (h : finishKey r a s = .ok u) : Runs r.instr s u := by
  cases r with
  | skipIfPressed x => exact runs_skipIf (by simp [KeyRequest.instr, mayChange]) h
  | skipIfNotPressed x => exact runs_skipIf (by simp [KeyRequest.instr, mayChange]) h
  | bind x =>
    cases a with
    | key k =>
      cases h
      exact runs_setReg s x _ (by simp [KeyRequest.instr, mayChange]) (by simp [KeyRequest.instr, mayWriteReg])
    | noKey => cases h; exact runs_refl _ s

theorem askKey_ended (r : KeyRequest) (s : State) : Ended r.instr s (askKey r s) := by
  refine ended_askKey s ?_ ?_ fun a t u h => runs_finishKey r a h <;>
    cases r <;> simp [KeyRequest.instr, mayChange, hostStopParts]

theorem drawSprite_ended (x y n : Nibble) (sprite : List Byte) (s : State) :
    Ended (.drw x y n) s (drawSprite x y sprite s) := by
  refine ((runs_setFb s _ ?_).trans (runs_setReg _ flagIndex _ ?_ ?_)).ended_trans (ended_present _ ?_ ?_) <;>
    simp [mayChange, mayWriteReg, hostStopParts]

theorem execLoad_ended (x : Nibble) (s : State) : ∃ t, exec (.load x) s = .next t ∧ Ended (.load x) s t := by
  refine ⟨_, rfl, ended_settle fun u hu => ?_⟩
  cases hb : readBlock s.mem (effectiveAddress s 0) (x.toNat + 1) with
  | error e => simp [hb] at hu
  | ok bs =>
    rw [hb] at hu
    have hlength := readBlock_length hb
    have hregs : Runs (.load x) s { s with V := loadRegs s.V 0 bs } :=
      runs_setV s _ (by simp [mayChange]) fun k hk => reg_loadRegs_of_lt s bs k (by
        simp only [mayWriteReg, decide_eq_false_iff_not] at hk
        omega)
    exact (hregs.trans (runs_advanceIndex (by simp [mayChange]) hu)).ended

/-- The execute part of an instruction ends, going on or stopped, within the frame of the instruction. -/
theorem exec_ended (i : Instr) (s : State) : ∃ t, exec i s = .next t ∧ Ended i s t := by
  cases i with
  | cls =>
    exact ⟨_, rfl, (runs_setFb s _ (by simp [mayChange])).ended_trans
      (ended_present _ (by simp [mayChange]) (by simp [mayChange, hostStopParts]))⟩
  | ret =>
    refine ⟨_, rfl, ended_settle fun u hu => ?_⟩
    rcases pop_cases s with ⟨-, hp⟩ | ⟨rest, a, hstack, hp⟩ <;> rw [hp] at hu <;> cases hu
    exact (runs_of_regs_eq (carries_pop s rest a a hstack) (keeps_setStackPc s rest a) (by simp [mayChange]) rfl).ended
  | call nnn =>
    refine ⟨_, rfl, ended_settle fun u hu => ?_⟩
    rcases push_cases s s.pc with ⟨hlimit, hp⟩ | ⟨-, hp⟩ <;> rw [hp] at hu <;> cases hu
    exact (runs_of_regs_eq (carries_push s s.pc nnn hlimit) (keeps_setStackPc s _ nnn) (by simp [mayChange]) rfl).ended
  | jp nnn => exact ⟨_, rfl, (runs_setPc s nnn (by simp [mayChange])).ended⟩
  | jpV0 nnn =>
    refine ⟨_, rfl, ended_settle fun u hu => ?_⟩
    rcases chk12_cases (nnn.toNat + (s.reg (jumpOffsetIndex s nnn)).toNat) with ⟨-, a, -, hv⟩ | ⟨-, hv⟩ <;>
      rw [hv] at hu <;> cases hu
    exact (runs_setPc s a (by simp [mayChange])).ended
  | seImm x _ | sneImm x _ | seReg x _ | sneReg x _ =>
    exact ⟨_, rfl, ended_settle fun u hu => (runs_skipIf (by simp [mayChange]) hu).ended⟩
  | ldImm x _ | addImm x _ | ldReg x _ | orReg x _ | andReg x _ | xorReg x _ | ldVxDt x =>
    exact ⟨_, rfl, (runs_setReg s x _ (by simp [mayChange]) (by simp [mayWriteReg])).ended⟩
  | addReg x _ | subReg x _ | subn x _ | shr x _ | shl x _ =>
    exact ⟨_, rfl, (runs_setResultAndFlag s x _ _ (by simp [mayChange]) (by simp [mayWriteReg])
      (by simp [mayWriteReg])).ended⟩
  | rnd x _ =>
    exact ⟨_, rfl, ((runs_setHost s s.host.takeRand.2 (by simp [mayChange])).trans
      (runs_setReg _ x _ (by simp [mayChange]) (by simp [mayWriteReg]))).ended⟩
  | drw x y n =>
    refine ⟨_, rfl, ended_settle fun u hu => ?_⟩
    cases hb : readBlock s.mem (effectiveAddress s 0) n.toNat with
    | error e => simp [hb] at hu
    | ok sprite =>
      rw [hb] at hu
      cases hu
      exact drawSprite_ended x y n sprite s
  | skp x => exact ⟨_, rfl, askKey_ended (.skipIfPressed x) s⟩
  | sknp x => exact ⟨_, rfl, askKey_ended (.skipIfNotPressed x) s⟩
  | ldVxK x => exact ⟨_, rfl, askKey_ended (.bind x) s⟩
  | ldDtVx x => exact ⟨_, rfl, (runs_setDelay s _ (by simp [mayChange])).ended⟩
  | ldStVx x => exact ⟨_, rfl, (runs_setBuzzer s _ (by simp [mayChange])).ended⟩
  | ldI _ | ldF _ => exact ⟨_, rfl, (runs_setIndex s _ (by simp [mayChange])).ended⟩
  | addI x =>
    refine ⟨_, rfl, ended_settle fun u hu => ?_⟩
    rcases chk12_cases (s.I.toNat + (s.reg x).toNat) with ⟨-, a, -, hv⟩ | ⟨-, hv⟩ <;> rw [hv] at hu <;> cases hu
    exact (runs_setIndex s a (by simp [mayChange])).ended
  | ldB x =>
    refine ⟨_, rfl, ended_settle fun u hu => ?_⟩
    cases hb : writeBlock s.mem (effectiveAddress s 0) (decimalDigits (s.reg x)) with
    | error e => simp [hb] at hu
    | ok m =>
      rw [hb] at hu
      cases hu
      exact (runs_writeBlock (by simp [mayChange]) hb).ended
  | save x =>
    refine ⟨_, rfl, ended_settle fun u hu => ?_⟩
    cases hb : writeBlock s.mem (effectiveAddress s 0) (registerBlock s x) with
    | error e => simp [hb] at hu
    | ok m =>
      rw [hb] at hu
      exact ((runs_writeBlock (by simp [mayChange]) hb).trans (runs_advanceIndex (by simp [mayChange]) hu)).ended
  | load x => exact execLoad_ended x s

/-- Every answer of the execute part is an end within the frame of the instruction. -/
theorem ended_of_exec {t : State} (h : exec i s = .next t) : Ended i s t := by
  obtain ⟨t', h', hended⟩ := exec_ended i s
  cases h'.symm.trans h
  exact hended

/-- With no fatal record, an end is within the frame of the instruction. -/
theorem Ended.keeps {t : State} (h : Ended i s t) (ht : t.fatal = none) : Keeps (mayChange i) s t := by
  obtain ⟨u, hruns, hends⟩ := h
  cases hends with
  | goesOn => exact hruns.frame
  | fatal e => simp at ht
  | hostFailure k hstop => exact hruns.frame.trans ((u.hostFailure_keeps k).mono hstop)

theorem Ended.reg {t : State} (h : Ended i s t) (ht : t.fatal = none) (k : Nibble) (hk : mayWriteReg i k = false) :
    t.reg k = s.reg k := by
  obtain ⟨u, hruns, hends⟩ := h
  cases hends with
  | goesOn => exact hruns.regs k hk
  | fatal e => simp at ht
  | hostFailure kind _ => exact (State.reg_congr u _ rfl k).trans (hruns.regs k hk)

/-- Settles O19: `ended_of_exec` gives the frame of every end that is no fatal stop. -/
theorem instructionsChangeOnlyTheirPieces : Obligations.InstructionsChangeOnlyTheirPieces :=
  fun _ _ _ h ht => (ended_of_exec h).keeps ht

/-- Settles O20: `ended_of_exec` gives the registers of every end that is no fatal stop. -/
theorem onlyDestinationsAndFlagChange : Obligations.OnlyDestinationsAndFlagChange :=
  fun _ _ _ k h ht hk => (ended_of_exec h).reg ht k hk

end Sys2Proof.Machine
end

section
/-! The invariant of the block's life over one step. -/

namespace Sys2Proof.Machine

variable {c : List Part} {s t u : State}

/-! What a computation and a stop keep. -/

theorem mem_append_fatalReport {out new : List Output} (hquiet : ∀ o ∈ new, o.isReport = false) (r : FaultRecord) :
    Output.fatalReport r ∈ out ++ new ↔ Output.fatalReport r ∈ out := by
  have hnew : Output.fatalReport r ∉ new := fun hr => absurd (hquiet _ hr) (by simp [Output.isReport])
  simp [hnew]

theorem countP_append_quiet {out new : List Output} (hquiet : ∀ o ∈ new, o.isReport = false) :
    (out ++ new).countP Output.isReport = out.countP Output.isReport := by
  simp only [List.countP_append, Nat.add_eq_left, List.countP_eq_zero]
  exact fun o ho => by simp [hquiet o ho]

/-- No fatal record is latched until a stop (60_exceptions.md R311). -/
theorem State.Inv.fatal_eq_none (h : s.Inv) (hs : s.phase ≠ .stopped) : s.fatal = none := by
  by_contra hne
  exact hs (h.latch (Option.isSome_iff_ne_none.mpr hne))

theorem Carries.inv (hc : Carries s u) (h : s.Inv) (hrun : s.phase = .running) : u.Inv where
  memory := hc.memory h.memory
  gate := by rw [hc.started, hc.phase]; exact h.gate
  latch := by rw [hc.fatal, hc.phase]; exact h.latch
  waiting := fun _ => hc.phase.trans hrun
  reports := by
    obtain ⟨new, hout, hquiet⟩ := hc.outputs
    rw [hout, countP_append_quiet hquiet, hc.phase]
    exact h.reports
  reported := fun r => by
    obtain ⟨new, hout, hquiet⟩ := hc.outputs
    rw [hout, mem_append_fatalReport hquiet, hc.fatal]
    exact h.reported r
  depth := fun hu n hn => by
    rw [hc.phase] at hu
    rw [hc.config] at hn
    exact hc.depth n hn (h.depth hu n hn)

theorem raiseFatal_inv (e : Raised) (h : u.Inv) (hrun : u.phase = .running) : (raiseFatal e u).Inv where
  memory := Memory.wf_ofBytes _
  gate := by simpa [hrun] using h.gate
  latch := fun _ => rfl
  waiting := by simp
  reports := by simp [h.reports, hrun, Output.isReport]
  reported := fun r => by
    simp [h.reported, h.fatal_eq_none (by simp [hrun]), eq_comm]
  depth := by simp

theorem State.hostFailure_inv (k : HostFailureKind) (h : u.Inv) (hrun : u.phase = .running) :
    (u.hostFailure k).Inv where
  memory := h.memory
  gate := by simpa [hrun] using h.gate
  latch := fun _ => rfl
  waiting := by simp
  reports := by simp [h.reports, hrun, Output.isReport]
  reported := fun r => by simp [h.reported]
  depth := by simp

theorem Ends.inv (hends : Ends c u t) (h : u.Inv) (hrun : u.phase = .running) : t.Inv := by
  cases hends with
  | goesOn => exact h
  | fatal e => exact raiseFatal_inv e h hrun
  | hostFailure k _ => exact State.hostFailure_inv k h hrun

theorem State.timerPhase_inv (h : u.Inv) : u.timerPhase.Inv :=
  ⟨h.memory, h.gate, h.latch, h.waiting, h.reports, h.reported, h.depth⟩

/-! The CPU agent's part. -/

/-- `t` comes from `s` by a computation of the run that goes on or stops. -/
def Advances (s t : State) : Prop := ∃ u, Carries s u ∧ Ends hostStopParts u t

theorem Ended.advances {i : Instr} (h : Ended i s t) : Advances s t := by
  obtain ⟨u, hruns, hends⟩ := h
  refine ⟨u, hruns.carries, ?_⟩
  cases hends with
  | goesOn => exact .goesOn
  | fatal e => exact .fatal e
  | hostFailure k _ => exact .hostFailure k (List.Subset.refl _)

theorem Carries.advances_trans (h₁ : Carries s u) (h₂ : Advances u t) : Advances s t := by
  obtain ⟨v, hv, hends⟩ := h₂
  exact ⟨v, h₁.trans hv, hends⟩

/-- Recording the fetch and advancing `pc` touches nothing of the block's life. -/
theorem carries_fetch (s : State) (w : Option Word) (p : Addr) :
    Carries s { s with fetchAt := s.pc, fetchWord := w, pc := p } :=
  carries_of_eq rfl rfl rfl rfl rfl rfl rfl

theorem raiseFatal_advances (e : Raised) (h : Carries s u) : Advances s (raiseFatal e u) := ⟨u, h, .fatal e⟩

/-- Fetch and advance answers the word and the advanced state, or a fatal stop of the cycle (50_cycle.md R245, R246). -/
theorem fetchAndAdvance_cases (s : State) :
    (∃ w p, fetchAndAdvance s = .word w { s with fetchAt := s.pc, fetchWord := some w, pc := p }) ∨
      ∃ e w, fetchAndAdvance s = .stop (raiseFatal e { s with fetchAt := s.pc, fetchWord := w }) := by
  unfold fetchAndAdvance
  cases readWord s.mem s.pc.toNat with
  | error e => exact .inr ⟨e, none, rfl⟩
  | ok w =>
    rcases chk12_cases (s.pc.toNat + 2) with ⟨-, p, -, hp⟩ | ⟨-, hp⟩ <;> simp only [hp]
    · exact .inl ⟨w, p, rfl⟩
    · exact .inr ⟨_, some w, rfl⟩

/-- The CPU agent's part of a step carries the run on or stops it. -/
theorem advances_of_cpuStep (h : cpuStep s = .next t) : Advances s t := by
  unfold cpuStep at h
  cases hwait : s.keyWait with
  | some r =>
    simp only [hwait, Host.Outcome.next.injEq] at h
    exact h ▸ (askKey_ended r s).advances
  | none =>
    simp only [hwait] at h
    rcases fetchAndAdvance_cases s with ⟨w, p, hf⟩ | ⟨e, w, hf⟩ <;> rw [hf] at h
    · have hfetch := carries_fetch s (some w) p
      simp only [executeFetched] at h
      cases hd : decode w with
      | known i =>
        simp only [hd] at h
        exact hfetch.advances_trans (ended_of_exec h).advances
      | unknown w' =>
        simp only [hd, Host.Outcome.next.injEq] at h
        exact h ▸ raiseFatal_advances _ hfetch
    · cases h
      exact raiseFatal_advances e (carries_fetch s w s.pc)

/-! The steps before the run. -/

theorem State.runStart_inv (h : s.Inv) (hs : s.phase = .loaded) : s.runStart.Inv where
  memory := h.memory
  gate := by simp
  latch := fun hfatal => by simp [h.fatal_eq_none (by simp [hs])] at hfatal
  waiting := fun _ => rfl
  reports := by simp [h.reports, hs]
  reported := h.reported
  depth := fun _ => h.depth (by simp [hs])

/-- Before the run, Memory and the outputs may change, and the phase may become Loaded. -/
theorem State.Inv.offered (h : s.Inv) (hs : s.phase = .constructed) (m : Memory) (hm : m.wf) (p : Phase)
    (hp : p = .constructed ∨ p = .loaded) (o : Output) (ho : o.isReport = false) (inputs : HostInputs) :
    State.Inv { s with mem := m, phase := p, out := s.out ++ [o], host := inputs } where
  memory := hm
  gate := by rcases hp with rfl | rfl <;> simpa [hs] using h.gate
  latch := fun hfatal => by simp [h.fatal_eq_none (by simp [hs])] at hfatal
  waiting := fun hwait => by simpa [hs] using h.waiting hwait
  reports := by
    rw [countP_append_quiet (by simpa using ho), h.reports]
    rcases hp with rfl | rfl <;> simp [hs]
  reported := fun r => by rw [mem_append_fatalReport (by simpa using ho)]; exact h.reported r
  depth := fun _ => h.depth (by simp [hs])

theorem State.offerImage_inv (h : s.Inv) (hs : s.phase = .constructed) : s.offerImage.Inv := by
  unfold State.offerImage
  by_cases hfits : s.host.takeImage.1.length ≤ maxImage
  · rw [loadImage_accepts _ _ hfits]
    have hwf := Memory.wf_writeRun s.host.takeImage.1 s.mem h.memory progBase
      (by simp only [maxImage, memSize, progBase] at *; omega)
    exact h.offered hs _ hwf .loaded (.inr rfl) .loadAccepted rfl _
  · rw [loadImage_rejects _ _ (by omega)]
    exact h.offered hs s.mem h.memory s.phase (.inl hs) .loadRejected rfl _

/-- Settles O11: each kind of step (`step_cases`) keeps the invariant. -/
theorem stepKeepsInvariant : Obligations.StepKeepsInvariant := by
  intro s t h hstep
  rcases step_cases s t hstep with ⟨hs, rfl⟩ | ⟨hs, rfl⟩ | ⟨hs, u, hcpu, rfl⟩
  · exact State.offerImage_inv h hs
  · exact State.runStart_inv h hs
  · obtain ⟨v, hcarries, hends⟩ := advances_of_cpuStep hcpu
    exact State.timerPhase_inv (hends.inv (hcarries.inv h hs) (hcarries.phase.trans hs))

end Sys2Proof.Machine
end

section
/-! What no step undoes. -/

namespace Sys2Proof.Machine

variable {s t u : State}

/-- `t` has the configuration of `s`, its gate if that was open, and its outputs with perhaps more after them. -/
structure OnlyAdds (s t : State) : Prop where
  config : t.config = s.config
  gate : s.started = true → t.started = true
  outputs : ∃ new, t.out = s.out ++ new

theorem OnlyAdds.trans (h₁ : OnlyAdds s t) (h₂ : OnlyAdds t u) : OnlyAdds s u where
  config := h₂.config.trans h₁.config
  gate := fun hs => h₂.gate (h₁.gate hs)
  outputs := by
    obtain ⟨new₁, hout₁⟩ := h₁.outputs
    obtain ⟨new₂, hout₂⟩ := h₂.outputs
    exact ⟨new₁ ++ new₂, by rw [hout₂, hout₁, List.append_assoc]⟩

theorem Carries.onlyAdds (h : Carries s u) : OnlyAdds s u where
  config := h.config
  gate := fun hs => h.started.trans hs
  outputs := by
    obtain ⟨new, hout, -⟩ := h.outputs
    exact ⟨new, hout⟩

theorem Ends.onlyAdds {c : List Part} (h : Ends c u t) : OnlyAdds u t := by
  cases h with
  | goesOn => exact ⟨rfl, id, [], by simp⟩
  | fatal e => exact ⟨rfl, id, _, rfl⟩
  | hostFailure k _ => exact ⟨rfl, id, _, rfl⟩

theorem State.offerImage_onlyAdds (s : State) : OnlyAdds s s.offerImage := by
  unfold State.offerImage
  by_cases hfits : s.host.takeImage.1.length ≤ maxImage
  · rw [loadImage_accepts _ _ hfits]
    exact ⟨rfl, id, _, rfl⟩
  · rw [loadImage_rejects _ _ (by omega)]
    exact ⟨rfl, id, _, rfl⟩

theorem step_onlyAdds (h : step s = .next t) : OnlyAdds s t := by
  rcases step_cases s t h with ⟨-, rfl⟩ | ⟨-, rfl⟩ | ⟨-, u, hcpu, rfl⟩
  · exact s.offerImage_onlyAdds
  · exact ⟨rfl, fun _ => rfl, [], by simp⟩
  · obtain ⟨v, hcarries, hends⟩ := advances_of_cpuStep hcpu
    have htimers : OnlyAdds u u.timerPhase := ⟨rfl, id, [], by simp⟩
    exact (hcarries.onlyAdds.trans hends.onlyAdds).trans htimers

/-- A block that has a step is not stopped (70_reset_and_hazards.md R341). -/
theorem phase_ne_stopped_of_step (h : step s = .next t) : s.phase ≠ .stopped := by
  intro hs
  simp [step, hs] at h

/-- Settles O13: a step only adds (`step_onlyAdds`), and a stopped block has none. -/
theorem stepNeverUndoes : Obligations.StepNeverUndoes := by
  intro s t h hstep
  obtain ⟨hconfig, hgate, hout⟩ := step_onlyAdds hstep
  exact ⟨hconfig, hgate, hout, h.fatal_eq_none (phase_ne_stopped_of_step hstep)⟩

end Sys2Proof.Machine
end

section
/-! Unanswered key requests. -/

namespace Sys2Proof.Machine

/-- Without an answer a key request is recorded and nothing else is done (10_state.md R48 (c)). -/
theorem askKey_notYet (r : KeyRequest) (s : State) (h : s.host.takeKey.1 = .notYet) :
    askKey r s = { s with keyWait := some r, host := s.host.takeKey.2 } := by
  simp only [askKey, h]

/-- Asking does not depend on a request already held. -/
theorem askKey_cleared (r : KeyRequest) (s : State) : askKey r { s with keyWait := none } = askKey r s := rfl

/-- The timer agent's turn is a number of single ticks (50_cycle.md R241). -/
theorem timerPhase_eq_ticks (s : State) :
    s.timerPhase = State.tick^[s.host.takeTicks.1] { s with host := s.host.takeTicks.2 } :=
  decay_eq_ticks _ _

/-- A step of the run with a request pending asks again, then the timers have their turn (50_cycle.md R249). -/
theorem step_of_keyWait (r : KeyRequest) (s : State) (hs : s.phase = .running) (hr : s.keyWait = some r) :
    step s = .next (askKey r s).timerPhase := by
  simp [step, hs, cpuStep, hr, thenTimers]

/-- Settles O57: the instruction of the request and the later steps both ask (`askKey`). -/
theorem unansweredKeyRequestWaits : Obligations.UnansweredKeyRequestWaits := by
  intro x s hs i r hir
  have hi : i = r.instr := by
    simp only [List.mem_cons, Prod.mk.injEq, List.not_mem_nil, or_false] at hir
    rcases hir with ⟨rfl, rfl⟩ | ⟨rfl, rfl⟩ | ⟨rfl, rfl⟩ <;> rfl
  subst hi
  refine ⟨fun hreply => ?_, fun hr => ?_⟩
  · refine ⟨_, exec_instr r s, ?_⟩
    rw [askKey_notYet r s hreply]
    exact ⟨rfl, keeps_setKeyWaitHost s _ _⟩
  · refine ⟨_, exec_instr r _, ?_⟩
    rw [askKey_cleared, step_of_keyWait r s hs hr, timerPhase_eq_ticks]

end Sys2Proof.Machine
end

section
/-! The state after construction. -/

namespace Sys2Proof.Machine

theorem State.reset_reg (k : Nibble) : State.reset.reg k = 0x00#8 := by
  simp [State.reg, State.reset]

/-- Outside the font every byte is constructed zero (10_state.md R50). -/
theorem Memory.unlisted_eq_zero (a : Nat) (h : a < 0x050 ∨ 0x09F < a) : Memory.unlisted a = 0x00#8 := by
  unfold Memory.unlisted
  rcases h with hlow | hhigh
  · exact if_neg (by simp only [fontBase]; omega)
  · have hlength : fontRom.length ≤ a - fontBase := by
      have : fontRom.length = 80 := rfl
      simp only [fontBase]
      omega
    rw [List.getD_eq_default _ _ hlength, ite_self]

/-- Settles O6: the fields of `State.reset`, the zeros of Memory by `Memory.unlisted_eq_zero`. -/
theorem constructionState : Obligations.ConstructionState := by
  refine ⟨State.reset_reg, rfl, rfl, rfl, Framebuffer.pixel_clear, rfl, rfl, rfl, rfl, rfl,
    Memory.unlisted_eq_zero, ?_, ?_, ?_⟩ <;> decide

end Sys2Proof.Machine
end

section
/-! The decoder on the words the formats build (30_encoding.md R91). -/

namespace Sys2Proof

theorem decode_eq_known {w : Word} {i : Instr} (h : decodeFields (fieldsOf w) = some i) : decode w = .known i := by
  rw [decode, h]

theorem decode_eq_unknown {w : Word} (h : decodeFields (fieldsOf w) = none) : decode w = .unknown w := by
  rw [decode, h]

/-! Nibbles no family inspects (30_encoding.md R99, R102). -/

theorem decode_cls (x : Nibble) : decode (formatXnn 0x0#4 x 0xE0#8) = .known .cls :=
  decode_eq_known (by simp [decodeFields, decodeFamily0, formatXnn_op, formatXnn_nn])

theorem decode_ret (x : Nibble) : decode (formatXnn 0x0#4 x 0xEE#8) = .known .ret :=
  decode_eq_known (by simp [decodeFields, decodeFamily0, formatXnn_op, formatXnn_nn])

theorem decode_seReg (x y n : Nibble) : decode (formatXyn 0x5#4 x y n) = .known (.seReg x y) :=
  decode_eq_known (by simp [decodeFields, formatXyn_op, formatXyn_x, formatXyn_y])

theorem decode_sneReg (x y n : Nibble) : decode (formatXyn 0x9#4 x y n) = .known (.sneReg x y) :=
  decode_eq_known (by simp [decodeFields, formatXyn_op, formatXyn_x, formatXyn_y])

/-- The decoder reads back every operand the encoder laid out, format by format. -/
theorem decode_encode (i : Instr) : decode (encode i) = .known i := by
  cases i with
  | cls => exact decode_cls _
  | ret => exact decode_ret _
  | seReg x y => exact decode_seReg x y _
  | sneReg x y => exact decode_sneReg x y _
  | jp | call | ldI | jpV0 =>
    exact decode_eq_known (by simp [encode, decodeFields, formatNnn_op, formatNnn_nnn])
  | seImm | sneImm | ldImm | addImm | rnd =>
    exact decode_eq_known (by simp [encode, decodeFields, formatXnn_op, formatXnn_x, formatXnn_nn])
  | drw =>
    exact decode_eq_known (by simp [encode, decodeFields, formatXyn_op, formatXyn_x, formatXyn_y, formatXyn_n])
  | ldReg | orReg | andReg | xorReg | addReg | subReg | shr | subn | shl =>
    exact decode_eq_known
      (by simp [encode, decodeFields, decodeFamily8, formatXyn_op, formatXyn_x, formatXyn_y, formatXyn_n])
  | skp | sknp =>
    exact decode_eq_known (by simp [encode, decodeFields, decodeFamilyE, formatXnn_op, formatXnn_x, formatXnn_nn])
  | ldVxDt | ldVxK | ldDtVx | ldStVx | addI | ldF | ldB | save | load =>
    exact decode_eq_known (by simp [encode, decodeFields, decodeFamilyF, formatXnn_op, formatXnn_x, formatXnn_nn])

/-- Settles O2, by format (`decode_encode`). -/
theorem decodeOfEncodeIsInstruction : Obligations.DecodeOfEncodeIsInstruction := decode_encode

/-- Settles O1: each example is the word of its instruction. -/
theorem decodesSourceExamples : Obligations.DecodesSourceExamples :=
  ⟨decode_encode .cls, decode_encode .ret, decode_encode (.jp 0x245#12), decode_encode (.addImm 0xF#4 0x4A#8),
    decode_encode (.drw 0x6#4 0xF#4 0xA#4), decode_encode (.save 0x0#4)⟩

/-- Settles O5: the four words with a nibble not inspected. -/
theorem uninspectedNibblesDoNotMatter : Obligations.UninspectedNibblesDoNotMatter :=
  fun x y n => ⟨decode_cls x, decode_ret x, decode_seReg x y n, decode_sneReg x y n⟩

end Sys2Proof
end

section
/-! Rows of the opcode map that no word selects together (30_encoding.md R97). -/

namespace Sys2Proof

/-- The two rows fix a bit that both inspect to different values. -/
def OpcodeRow.Conflicts (r t : OpcodeRow) : Prop := r.pattern &&& t.mask ≠ t.pattern &&& r.mask

theorem OpcodeRow.Conflicts.not_selects {r t : OpcodeRow} (h : r.Conflicts t) {w : Word} (hr : r.selects w = true) :
    ¬ t.selects w = true := by
  intro ht
  simp only [OpcodeRow.selects, decide_eq_true_eq] at hr ht
  apply h
  calc r.pattern &&& t.mask = w &&& r.mask &&& t.mask := by rw [hr]
    _ = w &&& t.mask &&& r.mask := by rw [BitVec.and_assoc, BitVec.and_comm r.mask, BitVec.and_assoc]
    _ = t.pattern &&& r.mask := by rw [ht]

theorem opcodeMap_pairwise_conflicts : opcodeMap.Pairwise OpcodeRow.Conflicts := by
  unfold OpcodeRow.Conflicts
  decide

theorem countP_le_one_of_pairwise {α : Type} {p : α → Bool} {l : List α}
    (h : l.Pairwise fun a b => p a = true → ¬ p b = true) : l.countP p ≤ 1 := by
  induction h with
  | nil => simp
  | @cons a l ha _ ih =>
    by_cases hp : p a = true
    · have hrest : l.countP p = 0 := List.countP_eq_zero.mpr fun b hb => ha b hb hp
      simp [hp, hrest]
    · simpa [hp] using ih

/-- Settles O4: any two rows conflict. -/
theorem opcodeMapRowsNeverOverlap : Obligations.OpcodeMapRowsNeverOverlap := fun _ =>
  countP_le_one_of_pairwise (opcodeMap_pairwise_conflicts.imp fun hrt => hrt.not_selects)

end Sys2Proof
end

section
/-! The decoder on the words a row of the opcode map selects (30_encoding.md R95, R97). -/

namespace Sys2Proof

open Laws.RowMatch

/-! A word is built from its fields. -/

theorem formatNnn_fieldsOf (w : Word) : formatNnn (fieldsOf w).op (fieldsOf w).nnn = w :=
  BitVec.extractLsb'_append_extractLsb'

theorem formatXnn_fieldsOf (w : Word) : formatXnn (fieldsOf w).op (fieldsOf w).x (fieldsOf w).nn = w := by
  have hhigh : (fieldsOf w).op ++ (fieldsOf w).x = w.extractLsb' 8 8 :=
    BitVec.extractLsb'_append_extractLsb'_eq_extractLsb' rfl
  rw [formatXnn, hhigh]
  exact BitVec.extractLsb'_append_extractLsb'

theorem formatXyn_fieldsOf (w : Word) :
    formatXyn (fieldsOf w).op (fieldsOf w).x (fieldsOf w).y (fieldsOf w).n = w := by
  have hxy : (fieldsOf w).op ++ (fieldsOf w).x ++ (fieldsOf w).y = w.extractLsb' 4 12 := by
    rw [show (fieldsOf w).op ++ (fieldsOf w).x = w.extractLsb' 8 8 from
      BitVec.extractLsb'_append_extractLsb'_eq_extractLsb' rfl]
    exact BitVec.extractLsb'_append_extractLsb'_eq_extractLsb' rfl
  rw [formatXyn, hxy]
  exact BitVec.extractLsb'_append_extractLsb'

/-! The three masks of the map, as conditions on the word's fields. A pattern has no bit outside its mask. -/

theorem selects_op_iff {p : Word} {build : Fields → Instr} {w : Word}
    (hp : formatNnn (fieldsOf p).op 0x000#12 = p) :
    OpcodeRow.selects ⟨0xF000#16, p, build⟩ w = true ↔ (fieldsOf w).op = (fieldsOf p).op := by
  have hmask : w &&& 0xF000#16 = formatNnn (fieldsOf w).op 0x000#12 :=
    (congrArg (· &&& 0xF000#16) (formatNnn_fieldsOf w).symm).trans (nnnForm _ _)
  rw [OpcodeRow.selects, hmask, decide_eq_true_eq]
  exact ⟨by rintro rfl; rw [formatNnn_op], fun h => h ▸ hp⟩

theorem selects_op_nn_iff {p : Word} {build : Fields → Instr} {w : Word}
    (hp : formatXnn (fieldsOf p).op 0x0#4 (fieldsOf p).nn = p) :
    OpcodeRow.selects ⟨0xF0FF#16, p, build⟩ w = true ↔
      (fieldsOf w).op = (fieldsOf p).op ∧ (fieldsOf w).nn = (fieldsOf p).nn := by
  have hmask : w &&& 0xF0FF#16 = formatXnn (fieldsOf w).op 0x0#4 (fieldsOf w).nn :=
    (congrArg (· &&& 0xF0FF#16) (formatXnn_fieldsOf w).symm).trans (xssForm _ _ _)
  rw [OpcodeRow.selects, hmask, decide_eq_true_eq]
  exact ⟨by rintro rfl; rw [formatXnn_op, formatXnn_nn]; exact ⟨rfl, rfl⟩,
    fun ⟨hop, hnn⟩ => by rw [hop, hnn, hp]⟩

theorem selects_op_n_iff {p : Word} {build : Fields → Instr} {w : Word}
    (hp : formatXyn (fieldsOf p).op 0x0#4 0x0#4 (fieldsOf p).n = p) :
    OpcodeRow.selects ⟨0xF00F#16, p, build⟩ w = true ↔
      (fieldsOf w).op = (fieldsOf p).op ∧ (fieldsOf w).n = (fieldsOf p).n := by
  have hmask : w &&& 0xF00F#16 = formatXyn (fieldsOf w).op 0x0#4 0x0#4 (fieldsOf w).n :=
    (congrArg (· &&& 0xF00F#16) (formatXyn_fieldsOf w).symm).trans (family8Form _ _ _ _)
  rw [OpcodeRow.selects, hmask, decide_eq_true_eq]
  exact ⟨by rintro rfl; rw [formatXyn_op, formatXyn_n]; exact ⟨rfl, rfl⟩,
    fun ⟨hop, hn⟩ => by rw [hop, hn, hp]⟩

/-- The decoder answers the payload of a selected row. -/
theorem decodeFields_of_selects (w : Word) :
    ∀ r ∈ opcodeMap, r.selects w = true → decodeFields (fieldsOf w) = some (r.build (fieldsOf w)) := by
  simp (disch := decide) only [opcodeMap, opcodeMapLow, opcodeMapMid, opcodeMapHigh, List.forall_mem_append,
    List.forall_mem_cons, List.not_mem_nil, false_imp_iff, implies_true, and_true, selects_op_iff, selects_op_nn_iff,
    selects_op_n_iff]
  generalize fieldsOf w = f
  and_intros
  all_goals
    intro h
    simp [h, fieldsOf, decodeFields, decodeFamily0, decodeFamily8, decodeFamilyE, decodeFamilyF]

/-- The families that dispatch further are those left by the families of one row (30_encoding.md R95). -/
theorem dispatching_of_not_mem (op : Nibble) (h : op ∉ [0x1#4, 0x2#4, 0x3#4, 0x4#4, 0x5#4, 0x6#4, 0x7#4, 0x9#4,
    0xA#4, 0xB#4, 0xC#4, 0xD#4]) : op = 0x0#4 ∨ op = 0x8#4 ∨ op = 0xE#4 ∨ op = 0xF#4 := by
  decide +revert

/-- A word that selects no row is in a family that dispatches further, on a value no row of the family has. -/
theorem decodeFields_eq_none (w : Word) (h : ∀ r ∈ opcodeMap, ¬ r.selects w = true) :
    decodeFields (fieldsOf w) = none := by
  simp (disch := decide) only [opcodeMap, opcodeMapLow, opcodeMapMid, opcodeMapHigh, List.forall_mem_append,
    List.forall_mem_cons, selects_op_iff, selects_op_nn_iff, selects_op_n_iff] at h
  generalize fieldsOf w = f at h ⊢
  simp only [fieldsOf, BitVec.reduceExtractLsb', not_and] at h
  rcases dispatching_of_not_mem f.op (by simp [h]) with hop | hop | hop | hop
  · simp [decodeFields, decodeFamily0, hop, h]
  · simp [decodeFields, decodeFamily8, hop, h]
  · simp [decodeFields, decodeFamilyE, hop, h]
  · simp [decodeFields, decodeFamilyF, hop, h]

/-- Settles O3: `decodeFields` answers a selected row's payload, and nothing where no row is selected. -/
theorem decoderAgreesWithOpcodeMap : Obligations.DecoderAgreesWithOpcodeMap := fun w =>
  ⟨fun r hr hsel => decode_eq_known (decodeFields_of_selects w r hr hsel),
    fun h => decode_eq_unknown (decodeFields_eq_none w fun r hr => by simp [h r hr])⟩

end Sys2Proof
end

section
/-! Calls, returns and jumps: the execute part, case by case (40_control.md R120 to R124). -/

namespace Sys2Proof.Machine

theorem exec_ret_of_append {s : State} {rest : List Addr} {a : Addr} (h : s.stack = rest ++ [a]) :
    exec .ret s = .next { s with stack := rest, pc := a } := by
  simp [exec, execRet, pop, h]

theorem exec_ret_of_empty {s : State} (h : s.stack = []) :
    exec .ret s = .next (raiseFatal ⟨.emptyStackReturn, none⟩ s) := by
  simp [exec, execRet, pop, h]

theorem exec_jp (nnn : Addr) (s : State) : exec (.jp nnn) s = .next { s with pc := nnn } := rfl

theorem exec_call_of_room {s : State} (nnn : Addr) (h : s.config.stackLimit ≠ some s.stack.length) :
    exec (.call nnn) s = .next { s with stack := s.stack ++ [s.pc], pc := nnn } := by
  simp [exec, execCall, push, h]

theorem exec_call_of_limit {s : State} (nnn : Addr) (h : s.config.stackLimit = some s.stack.length) :
    exec (.call nnn) s = .next (raiseFatal ⟨.stackOverflow, some s.pc.toNat⟩ s) := by
  simp [exec, execCall, push, h]

/-- The sum jump-with-offset checks before it enters `pc` (40_control.md R124). -/
def jumpTarget (nnn : Addr) (s : State) : Nat := nnn.toNat + (s.reg (jumpOffsetIndex s nnn)).toNat

theorem exec_jpV0_of_le {s : State} {nnn : Addr} (h : jumpTarget nnn s ≤ maxAddr) :
    ∃ a : Addr, a.toNat = jumpTarget nnn s ∧ exec (.jpV0 nnn) s = .next { s with pc := a } := by
  rcases chk12_cases (jumpTarget nnn s) with ⟨-, a, ha, hchk⟩ | ⟨hgt, -⟩
  · rw [jumpTarget] at hchk
    exact ⟨a, ha, by simp [exec, execJpV0, hchk]⟩
  · omega

theorem exec_jpV0_of_gt {s : State} {nnn : Addr} (h : maxAddr < jumpTarget nnn s) :
    exec (.jpV0 nnn) s = .next (raiseFatal ⟨.addressOverflow, some (jumpTarget nnn s)⟩ s) := by
  have hchk := chk12_error (jumpTarget nnn s) h
  rw [jumpTarget] at hchk ⊢
  simp [exec, execJpV0, hchk]

/-- Settles O31: the return pops the address the call pushed, which leaves the caller's own `pc` and stack. -/
theorem callThenReturnRestores : Obligations.CallThenReturnRestores := fun nnn s hroom =>
  ⟨_, _, exec_call_of_room nnn hroom, exec_ret_of_append rfl, keeps_refl [] s⟩

/-- Settles O28: the stack is empty or has a top. -/
theorem returnPopsPc : Obligations.ReturnPopsPc := by
  intro x s
  refine ⟨decode_ret x, fun rest a hstack => ?_, fun hempty => ?_⟩
  · exact ⟨_, exec_ret_of_append hstack, rfl, rfl, (keeps_setStackPc s rest a).mono (by simp)⟩
  · exact ⟨_, exec_ret_of_empty hempty, raiseFatal_stopsWith _ s⟩

/-- Settles O29: the one write of `exec_jp` is `pc`. -/
theorem jumpSetsPc : Obligations.JumpSetsPc := fun nnn s =>
  ⟨decode_encode (.jp nnn), _, exec_jp nnn s, rfl, keeps_setPc s nnn⟩

/-- Settles O30: the stack has room, or is at its limit. -/
theorem callPushesAdvancedPc : Obligations.CallPushesAdvancedPc := by
  intro nnn s
  refine ⟨decode_encode (.call nnn), fun hroom => ?_, fun hlimit => ?_⟩
  · exact ⟨_, exec_call_of_room nnn hroom, rfl, rfl, (keeps_setStackPc s _ nnn).mono (by simp)⟩
  · exact ⟨_, exec_call_of_limit nnn hlimit, raiseFatal_stopsWith _ s⟩

/-- Settles O32: the sum fits in 12 bits, or is raised. -/
theorem jumpWithOffsetAddsRegister : Obligations.JumpWithOffsetAddsRegister := by
  intro nnn s target htarget
  change target = jumpTarget nnn s at htarget
  subst htarget
  refine ⟨decode_encode (.jpV0 nnn), fun hle => ?_, fun hgt => ?_⟩
  · obtain ⟨a, ha, hexec⟩ := exec_jpV0_of_le hle
    exact ⟨_, hexec, ha, keeps_setPc s a⟩
  · exact ⟨_, exec_jpV0_of_gt hgt, raiseFatal_stopsWith _ s⟩

end Sys2Proof.Machine
end

section
/-! Skips: one condition each, and one rule for all four (40_control.md R125 to R129). -/

namespace Sys2Proof.Machine

theorem exec_seImm (x : Nibble) (nn : Byte) (s : State) :
    exec (.seImm x nn) s = .next (settle s (skipIf (s.reg x = nn) s)) := rfl

theorem exec_sneImm (x : Nibble) (nn : Byte) (s : State) :
    exec (.sneImm x nn) s = .next (settle s (skipIf (s.reg x ≠ nn) s)) := rfl

theorem exec_seReg (x y : Nibble) (s : State) :
    exec (.seReg x y) s = .next (settle s (skipIf (s.reg x = s.reg y) s)) := rfl

theorem exec_sneReg (x y : Nibble) (s : State) :
    exec (.sneReg x y) s = .next (settle s (skipIf (s.reg x ≠ s.reg y) s)) := rfl

section
variable {i : Instr} {s : State} {p : Prop} [Decidable p]

theorem skip_stops_of_taken (hexec : exec i s = .next (settle s (skipIf p s))) (hp : p)
    (htop : maxAddr < s.pc.toNat + 2) :
    ∃ t, exec i s = .next t ∧ StopsWith .addressOverflow (some (s.pc.toNat + 2)) s t := by
  rcases skipIf_cases p s with ⟨hnot, -⟩ | ⟨-, hle, -⟩ | ⟨-, -, hskip⟩
  · exact absurd hp (of_decide_eq_false hnot)
  · omega
  · rw [hskip, settle_error] at hexec
    exact ⟨_, hexec, raiseFatal_stopsWith _ s⟩

theorem skip_keeps_of_not_taken (hexec : exec i s = .next (settle s (skipIf p s))) (hp : ¬ p) :
    ∃ t, exec i s = .next t ∧ Keeps [] s t := by
  have hskip : skipIf p s = .ok s := by simp [skipIf, hp]
  rw [hskip, settle_ok] at hexec
  exact ⟨_, hexec, keeps_refl [] s⟩

theorem skip_pc_of_le (hexec : exec i s = .next (settle s (skipIf p s))) (hle : s.pc.toNat + 2 ≤ maxAddr) :
    ∃ t, exec i s = .next t ∧ t.pc.toNat = s.pc.toNat + (if p then 2 else 0) ∧ Keeps [.pc] s t := by
  rcases skipIf_cases p s with ⟨hp, hskip⟩ | ⟨hp, -, a, ha, hskip⟩ | ⟨-, hgt, -⟩
  · rw [hskip, settle_ok] at hexec
    exact ⟨s, hexec, by simp [of_decide_eq_false hp], keeps_refl _ s⟩
  · rw [hskip, settle_ok] at hexec
    exact ⟨_, hexec, by simp [ha, of_decide_eq_true hp], keeps_setPc s a⟩
  · omega

end

/-- Settles O34: of a pair of skips on opposite conditions the one taken stops, the other does nothing. -/
theorem takenSkipPastTopStops : Obligations.TakenSkipPastTopStops := by
  intro x y nn s htop
  constructor
  · split
    next heq =>
      exact ⟨skip_stops_of_taken (exec_seImm x nn s) heq htop,
        skip_keeps_of_not_taken (exec_sneImm x nn s) (not_not_intro heq)⟩
    next hne =>
      exact ⟨skip_keeps_of_not_taken (exec_seImm x nn s) hne, skip_stops_of_taken (exec_sneImm x nn s) hne htop⟩
  · split
    next heq =>
      exact ⟨skip_stops_of_taken (exec_seReg x y s) heq htop,
        skip_keeps_of_not_taken (exec_sneReg x y s) (not_not_intro heq)⟩
    next hne =>
      exact ⟨skip_keeps_of_not_taken (exec_seReg x y s) hne, skip_stops_of_taken (exec_sneReg x y s) hne htop⟩

/-- Settles O33: the rule of `skip_pc_of_le` at the condition of each skip. -/
theorem skipsAddTwoOnCondition : Obligations.SkipsAddTwoOnCondition := by
  intro x y n nn s hle
  refine ⟨⟨decode_encode (.seImm x nn), skip_pc_of_le (exec_seImm x nn s) hle⟩,
    ⟨decode_encode (.sneImm x nn), ?_⟩, ⟨decode_seReg x y n, skip_pc_of_le (exec_seReg x y s) hle⟩,
    ⟨decode_sneReg x y n, ?_⟩⟩
  · simpa only [ne_eq, ite_not] using skip_pc_of_le (exec_sneImm x nn s) hle
  · simpa only [ne_eq, ite_not] using skip_pc_of_le (exec_sneReg x y s) hle

end Sys2Proof.Machine
end

section
/-! What an instruction that writes registers does, said once for a plain write and once for a result with its flag
(10_state.md R28, R29; 41_alu.md R141). -/

namespace Sys2Proof.Machine

section
variable {i : Instr} {s : State} {x : Nibble} {v result flag : Byte}

theorem setReg_writes_only (hexec : exec i s = .next (s.setReg x v)) :
    ∃ t, exec i s = .next t ∧ (∀ k, t.reg k = if k = x then v else s.reg k) ∧ Keeps [.regs] s t :=
  ⟨_, hexec, fun k => State.reg_setReg s x k v, State.setReg_keeps s x v⟩

theorem setReg_writes_number {m : Nat} (hexec : exec i s = .next (s.setReg x v)) (hv : v.toNat = m) :
    ∃ t, exec i s = .next t ∧ (∀ k, (t.reg k).toNat = if k = x then m else (s.reg k).toNat) ∧ Keeps [.regs] s t := by
  obtain ⟨t, ht, hreg, hkeeps⟩ := setReg_writes_only hexec
  exact ⟨t, ht, fun k => by rw [hreg k, apply_ite BitVec.toNat, hv], hkeeps⟩

theorem setReg_writes_bits {bit : Nat → Bool} (hexec : exec i s = .next (s.setReg x v))
    (hv : ∀ b, v.getLsbD b = bit b) :
    ∃ t, exec i s = .next t ∧ (∀ b, (t.reg x).getLsbD b = bit b) ∧ (∀ k, k ≠ x → t.reg k = s.reg k) ∧
      Keeps [.regs] s t := by
  obtain ⟨t, ht, hreg, hkeeps⟩ := setReg_writes_only hexec
  exact ⟨t, ht, fun b => by rw [hreg x, if_pos rfl, hv b], fun k hk => by rw [hreg k, if_neg hk], hkeeps⟩

/-- The flag's number `c` stands in `V[0xF]` also when `x` is 0xF (10_state.md R29, the spec's decision D8). -/
theorem setResultAndFlag_writes_numbers {m c : Nat}
    (hexec : exec i s = .next (s.setResultAndFlag x result flag)) (hresult : result.toNat = m)
    (hflag : flag.toNat = c) :
    ∃ t, exec i s = .next t ∧ Keeps [.regs] s t ∧
      ∀ k, (t.reg k).toNat = if k = 0xF#4 then c else if k = x then m else (s.reg k).toNat := by
  refine ⟨_, hexec, State.setResultAndFlag_keeps s x result flag, fun k => ?_⟩
  rw [State.reg_setResultAndFlag, apply_ite BitVec.toNat, apply_ite BitVec.toNat, hresult, hflag, flagIndex]

end

end Sys2Proof.Machine
end

section
/-! The numbers the arithmetic and shift instructions compute: results modulo 256 and flags (41_alu.md R149 to R156). -/

namespace Sys2Proof.Machine

theorem byte_toNat_sub (a b : Byte) : (a - b).toNat = (256 + a.toNat - b.toNat) % 256 := by
  have hb : b.toNat < 256 := b.isLt
  rw [BitVec.toNat_sub]
  congr 1
  omega

theorem byte_toNat_shiftRight_one (v : Byte) : (v >>> 1).toNat = v.toNat / 2 := by
  rw [BitVec.toNat_ushiftRight, Nat.shiftRight_eq_div_pow, pow_one]

theorem byte_toNat_shiftLeft_one (v : Byte) : (v <<< 1).toNat = v.toNat * 2 % 256 := by
  rw [BitVec.toNat_shiftLeft, Nat.shiftLeft_eq, pow_one]

theorem flagByte_toNat (b : Bool) : (flagByte b).toNat = b.toNat := by
  cases b <;> rfl

theorem flagByte_decide_toNat (p : Prop) [Decidable p] : (flagByte p).toNat = if p then 1 else 0 := by
  rw [flagByte_toNat, Bool.toNat, Bool.cond_decide]

theorem carryFlag_toNat (a b : Byte) : (carryFlag a b).toNat = if a.toNat + b.toNat > 255 then 1 else 0 :=
  flagByte_decide_toNat _

theorem noBorrowFlag_toNat (a b : Byte) : (noBorrowFlag a b).toNat = if a.toNat ≥ b.toNat then 1 else 0 :=
  flagByte_decide_toNat _

theorem lowBitFlag_toNat (v : Byte) : (lowBitFlag v).toNat = v.toNat % 2 := by
  rw [lowBitFlag, flagByte_toNat, BitVec.getLsbD, Nat.toNat_testBit, pow_zero, Nat.div_one]

theorem highBitFlag_toNat (v : Byte) : (highBitFlag v).toNat = v.toNat / 128 := by
  have hv : v.toNat < 256 := v.isLt
  have hbit : (highBitFlag v).toNat = v.toNat / 2 ^ 7 % 2 := by
    rw [highBitFlag, flagByte_toNat, BitVec.getLsbD, Nat.toNat_testBit]
  omega

end Sys2Proof.Machine
end

section
/-! The register, arithmetic, logic, shift and random instructions (41_alu.md R140 to R160). -/

namespace Sys2Proof.Machine

/-! The execute part, instruction by instruction. -/

theorem exec_ldImm (x : Nibble) (nn : Byte) (s : State) : exec (.ldImm x nn) s = .next (s.setReg x nn) := rfl

theorem exec_addImm (x : Nibble) (nn : Byte) (s : State) :
    exec (.addImm x nn) s = .next (s.setReg x (s.reg x + nn)) := rfl

theorem exec_ldReg (x y : Nibble) (s : State) : exec (.ldReg x y) s = .next (s.setReg x (s.reg y)) := rfl

theorem exec_orReg (x y : Nibble) (s : State) :
    exec (.orReg x y) s = .next (s.setReg x (s.reg x ||| s.reg y)) := rfl

theorem exec_andReg (x y : Nibble) (s : State) :
    exec (.andReg x y) s = .next (s.setReg x (s.reg x &&& s.reg y)) := rfl

theorem exec_xorReg (x y : Nibble) (s : State) :
    exec (.xorReg x y) s = .next (s.setReg x (s.reg x ^^^ s.reg y)) := rfl

theorem exec_addReg (x y : Nibble) (s : State) : exec (.addReg x y) s =
    .next (s.setResultAndFlag x (s.reg x + s.reg y) (carryFlag (s.reg x) (s.reg y))) := rfl

theorem exec_subReg (x y : Nibble) (s : State) : exec (.subReg x y) s =
    .next (s.setResultAndFlag x (s.reg x - s.reg y) (noBorrowFlag (s.reg x) (s.reg y))) := rfl

theorem exec_subn (x y : Nibble) (s : State) : exec (.subn x y) s =
    .next (s.setResultAndFlag x (s.reg y - s.reg x) (noBorrowFlag (s.reg y) (s.reg x))) := rfl

theorem exec_shr (x y : Nibble) (s : State) : exec (.shr x y) s =
    .next (s.setResultAndFlag x (shiftOperand s x y >>> 1) (lowBitFlag (shiftOperand s x y))) := rfl

theorem exec_shl (x y : Nibble) (s : State) : exec (.shl x y) s =
    .next (s.setResultAndFlag x (shiftOperand s x y <<< 1) (highBitFlag (shiftOperand s x y))) := rfl

theorem exec_rnd (x : Nibble) (nn : Byte) (s : State) : exec (.rnd x nn) s =
    .next (({ s with host := s.host.takeRand.2 } : State).setReg x (nn &&& s.host.takeRand.1)) := rfl

/-- Settles O35: both forms are one plain register write, the second of a byte sum. -/
theorem immediateFormsWriteDestination : Obligations.ImmediateFormsWriteDestination := fun x nn s =>
  ⟨⟨decode_encode (.ldImm x nn), setReg_writes_only (exec_ldImm x nn s)⟩,
    ⟨decode_encode (.addImm x nn), setReg_writes_number (exec_addImm x nn s) (BitVec.toNat_add _ _)⟩⟩

/-- Settles O36: each form is one plain register write; the operations on bytes are those on bits. -/
theorem copyAndBitwiseFormsWriteDestination : Obligations.CopyAndBitwiseFormsWriteDestination := fun x y s =>
  ⟨⟨decode_encode (.ldReg x y), setReg_writes_only (exec_ldReg x y s)⟩,
    ⟨decode_encode (.orReg x y), setReg_writes_bits (exec_orReg x y s) fun _ => BitVec.getLsbD_or⟩,
    ⟨decode_encode (.andReg x y), setReg_writes_bits (exec_andReg x y s) fun _ => BitVec.getLsbD_and⟩,
    ⟨decode_encode (.xorReg x y), setReg_writes_bits (exec_xorReg x y s) fun _ => BitVec.getLsbD_xor⟩⟩

/-- Settles O37: a result and its flag, at the byte sum and its carry. -/
theorem additionSetsCarry : Obligations.AdditionSetsCarry := fun x y s =>
  ⟨decode_encode (.addReg x y),
    setResultAndFlag_writes_numbers (exec_addReg x y s) (BitVec.toNat_add _ _) (carryFlag_toNat _ _)⟩

/-- Settles O38: a result and its flag, at the byte difference in either order. -/
theorem subtractionsSetNoBorrow : Obligations.SubtractionsSetNoBorrow := fun x y s =>
  ⟨⟨decode_encode (.subReg x y),
      setResultAndFlag_writes_numbers (exec_subReg x y s) (byte_toNat_sub _ _) (noBorrowFlag_toNat _ _)⟩,
    ⟨decode_encode (.subn x y),
      setResultAndFlag_writes_numbers (exec_subn x y s) (byte_toNat_sub _ _) (noBorrowFlag_toNat _ _)⟩⟩

/-- Settles O39: the value shifted is `shiftOperand`, under either setting of the quirk. -/
theorem shiftsMoveOneBit : Obligations.ShiftsMoveOneBit := by
  intro x y s v hv
  change v = (shiftOperand s x y).toNat at hv
  subst hv
  exact ⟨⟨decode_encode (.shr x y),
      setResultAndFlag_writes_numbers (exec_shr x y s) (byte_toNat_shiftRight_one _) (lowBitFlag_toNat _)⟩,
    ⟨decode_encode (.shl x y),
      setResultAndFlag_writes_numbers (exec_shl x y s) (byte_toNat_shiftLeft_one _) (highBitFlag_toNat _)⟩⟩

/-- Settles O40: the draw changes the host's inputs, and the write after it `V[x]`. -/
theorem randomIsMasked : Obligations.RandomIsMasked := by
  intro x nn s
  have hdraw : Keeps [.regs, .host] s { s with host := s.host.takeRand.2 } := (keeps_setHost s _).mono (by simp)
  refine ⟨decode_encode (.rnd x nn), _, exec_rnd x nn s, rfl, hdraw.trans ((State.setReg_keeps _ x _).mono (by simp)),
    fun k hk => State.reg_setReg_of_ne _ x k _ hk, fun b => ?_⟩
  rw [State.reg_setReg_same, BitVec.getLsbD_and]

end Sys2Proof.Machine
end

section
/-! The values index, load and store instructions compute: the glyph address, the decimal digits, the blocks of `V[0]` to
`V[x]`, and the index advance (42_index_memory.md R171 to R180). -/

namespace Sys2Proof.Machine

theorem glyphAddress_toNat (d : Byte) : (glyphAddress d).toNat = 0x050 + 5 * (d.toNat % 16) := by
  simp only [glyphAddress, BitVec.toNat_ofNat, fontBase, glyphBytes]
  omega

@[simp] theorem decimalDigits_length (v : Byte) : (decimalDigits v).length = 3 := rfl

/-- Each digit fits in a byte (42_index_memory.md R176). -/
theorem decimalDigits_toNat (v : Byte) :
    (decimalDigits v)[0].toNat = v.toNat / 100 ∧ (decimalDigits v)[1].toNat = v.toNat / 10 % 10 ∧
      (decimalDigits v)[2].toNat = v.toNat % 10 := by
  have hv : v.toNat < 256 := v.isLt
  simp only [decimalDigits, List.getElem_cons_zero, List.getElem_cons_succ, BitVec.toNat_ofNat]
  omega

@[simp] theorem registerBlock_length (s : State) (x : Nibble) : (registerBlock s x).length = x.toNat + 1 := by
  have hx : x.toNat < 16 := x.isLt
  simp only [registerBlock, List.length_take, Vector.length_toList]
  omega

theorem registerBlock_getElem (s : State) (x k : Nibble) (h : k.toNat < (registerBlock s x).length) :
    (registerBlock s x)[k.toNat] = s.reg k := by
  simp [registerBlock, State.reg]

/-- The bytes load moves into `V[0]` to `V[x]` (42_index_memory.md R180). -/
def memoryBlock (s : State) (x : Nibble) : List Byte :=
  (List.range (x.toNat + 1)).map fun j => Memory.read s.mem (s.I.toNat + j)

/-- The registers after the block of memory is loaded: those up to `V[x]` from memory, those above kept. -/
theorem reg_loadRegs_memoryBlock (s : State) (x k : Nibble) :
    ({ s with V := loadRegs s.V 0 (memoryBlock s x) } : State).reg k =
      if k.toNat ≤ x.toNat then Memory.read s.mem (s.I.toNat + k.toNat) else s.reg k := by
  simp [State.reg, loadRegs_getElem, memoryBlock]

theorem Memory.read_writeRun_inside {m : Memory} (hm : m.wf) {a j : Nat} {bs : List Byte} (ha : a + bs.length ≤ memSize)
    (hj : j < bs.length) : Memory.read (Memory.writeRun m a bs) (a + j) = bs[j] := by
  simp [Memory.read_writeRun bs m hm a (a + j) ha, hj]

theorem Memory.read_writeRun_outside {m : Memory} (hm : m.wf) {a b : Nat} {bs : List Byte}
    (ha : a + bs.length ≤ memSize) (hb : b < a ∨ a + bs.length ≤ b) :
    Memory.read (Memory.writeRun m a bs) b = Memory.read m b := by
  rw [Memory.read_writeRun bs m hm a b ha, dif_neg (by omega)]

/-- With the index update inside 12 bits, the advance sets `I`, to the same value when `INDEX_ADVANCE` is off. -/
theorem advanceIndex_of_le {s : State} {x : Nibble}
    (h : s.I.toNat + x.toNat + (if s.config.indexAdvance then 1 else 0) ≤ maxAddr) :
    ∃ a : Addr, a.toNat = s.I.toNat + (if s.config.indexAdvance then x.toNat + 1 else 0) ∧
      advanceIndex s x = .ok { s with I := a } := by
  rcases advanceIndex_cases s x with ⟨hoff, hadv⟩ | ⟨hon, -, a, ha, hadv⟩ | ⟨hon, hgt, -⟩
  · exact ⟨s.I, by simp [hoff], hadv⟩
  · exact ⟨a, by simp [hon, ha, Nat.add_assoc], hadv⟩
  · rw [if_pos hon] at h
    omega

/-- With the block ending at 0xFFF and `INDEX_ADVANCE` on, the advance is fatal (the spec's decision D6). -/
theorem advanceIndex_of_top {s : State} {x : Nibble} (htop : s.I.toNat + x.toNat = maxAddr)
    (hon : s.config.indexAdvance = true) : advanceIndex s x = .error ⟨.addressOverflow, some memSize⟩ := by
  rw [advanceIndex, if_pos hon, htop, chk12_error (maxAddr + 1) (Nat.lt_succ_self _)]

end Sys2Proof.Machine
end

section
/-! The index register, loads and stores: the execute part, case by case (42_index_memory.md R170 to R180). -/

namespace Sys2Proof.Machine

variable {s : State} {x : Nibble}

theorem exec_ldI (nnn : Addr) (s : State) : exec (.ldI nnn) s = .next { s with I := nnn } := rfl

theorem exec_ldF (x : Nibble) (s : State) : exec (.ldF x) s = .next { s with I := glyphAddress (s.reg x) } := rfl

theorem exec_addI_of_le (h : s.I.toNat + (s.reg x).toNat ≤ maxAddr) :
    ∃ a : Addr, a.toNat = s.I.toNat + (s.reg x).toNat ∧ exec (.addI x) s = .next { s with I := a } := by
  rcases chk12_cases (s.I.toNat + (s.reg x).toNat) with ⟨-, a, ha, hchk⟩ | ⟨hgt, -⟩
  · exact ⟨a, ha, by simp only [exec, execAddI, hchk, settle_ok]⟩
  · omega

theorem exec_addI_of_gt (h : maxAddr < s.I.toNat + (s.reg x).toNat) :
    exec (.addI x) s = .next (raiseFatal ⟨.addressOverflow, some (s.I.toNat + (s.reg x).toNat)⟩ s) := by
  simp only [exec, execAddI, chk12_error _ h, settle_error]

theorem exec_ldB_of_le (h : s.I.toNat + 3 ≤ memSize) : exec (.ldB x) s =
    .next { s with mem := Memory.writeRun s.mem s.I.toNat (decimalDigits (s.reg x)) } := by
  simp only [exec, execLdB, effectiveAddress, Nat.add_zero, writeBlock_ok (decimalDigits (s.reg x)) s.mem _ h, settle_ok]

theorem exec_ldB_of_gt (h : memSize < s.I.toNat + 3) :
    exec (.ldB x) s = .next (raiseFatal ⟨.memoryOutOfRange, some memSize⟩ s) := by
  simp only [exec, execLdB, effectiveAddress, Nat.add_zero,
    writeBlock_error (decimalDigits (s.reg x)) s.mem _ s.I.isLt.le h, settle_error]

/-- A save whose block fits writes it and ends with the index advance. -/
theorem exec_save_of_le (h : s.I.toNat + (x.toNat + 1) ≤ memSize) : exec (.save x) s =
    .next (settle s
      (advanceIndex { s with mem := Memory.writeRun s.mem s.I.toNat (registerBlock s x) } x)) := by
  simp only [exec, execSave, effectiveAddress, Nat.add_zero,
    writeBlock_ok (registerBlock s x) s.mem _ (by rwa [registerBlock_length])]

theorem exec_save_of_gt (h : memSize < s.I.toNat + (x.toNat + 1)) :
    exec (.save x) s = .next (raiseFatal ⟨.memoryOutOfRange, some memSize⟩ s) := by
  simp only [exec, execSave, effectiveAddress, Nat.add_zero,
    writeBlock_error (registerBlock s x) s.mem _ s.I.isLt.le (by rwa [registerBlock_length]), settle_error]

/-- A load whose block fits reads it and ends with the index advance. -/
theorem exec_load_of_le (h : s.I.toNat + (x.toNat + 1) ≤ memSize) : exec (.load x) s =
    .next (settle s (advanceIndex { s with V := loadRegs s.V 0 (memoryBlock s x) } x)) := by
  simp only [exec, execLoad, effectiveAddress, Nat.add_zero, readBlock_ok _ s.mem _ h, memoryBlock]

theorem exec_load_of_gt (h : memSize < s.I.toNat + (x.toNat + 1)) :
    exec (.load x) s = .next (raiseFatal ⟨.memoryOutOfRange, some memSize⟩ s) := by
  simp only [exec, execLoad, effectiveAddress, Nat.add_zero, readBlock_error _ s.mem _ s.I.isLt.le h, settle_error]

theorem stopsWith_of_exec {i : Instr} {e : Raised} (h : exec i s = .next (raiseFatal e s)) :
    ∃ t, exec i s = .next t ∧ StopsWith e.cause e.info s t :=
  ⟨_, h, raiseFatal_stopsWith e s⟩

end Sys2Proof.Machine
end

section
/-! The obligations on the index register, loads and stores. -/

namespace Sys2Proof.Machine

/-- Settles O41: both forms write `I` alone. -/
theorem indexLoads : Obligations.IndexLoads := fun nnn x s =>
  ⟨⟨decode_encode (.ldI nnn), _, exec_ldI nnn s, rfl, keeps_setIndex s nnn⟩,
    ⟨decode_encode (.ldF x), _, exec_ldF x s, glyphAddress_toNat _, keeps_setIndex s _⟩⟩

/-- Settles O42: the sum fits in 12 bits, or is raised. -/
theorem addIndexAddsRegister : Obligations.AddIndexAddsRegister := by
  intro x s
  refine ⟨decode_encode (.addI x), fun hle => ?_, fun hgt => stopsWith_of_exec (exec_addI_of_gt hgt)⟩
  obtain ⟨a, ha, hexec⟩ := exec_addI_of_le hle
  exact ⟨_, hexec, ha, keeps_setIndex s a⟩

/-- Settles O43: the three digits are one run of writes at `I`, or it leaves the address space. -/
theorem decimalSplitStoresDigits : Obligations.DecimalSplitStoresDigits := by
  intro x s hwf
  refine ⟨decode_encode (.ldB x), fun hle => ?_, fun hgt => stopsWith_of_exec (exec_ldB_of_gt (Nat.succ_le_succ hgt))⟩
  have hfits : s.I.toNat + (decimalDigits (s.reg x)).length ≤ memSize := Nat.succ_le_succ hle
  have hread (j : Nat) (hj : j < 3) := congrArg BitVec.toNat (Memory.read_writeRun_inside (j := j) hwf hfits hj)
  obtain ⟨hhundreds, htens, hones⟩ := decimalDigits_toNat (s.reg x)
  exact ⟨_, exec_ldB_of_le hfits, keeps_setMem s _, (hread 0 (by decide)).trans hhundreds,
    (hread 1 (by decide)).trans htens, (hread 2 (by decide)).trans hones,
    fun _ ha => Memory.read_writeRun_outside hwf hfits ha⟩

/-- Settles O44: the block is one run of writes at `I`, and the advance then sets `I` alone. -/
theorem saveStoresRegisterBlock : Obligations.SaveStoresRegisterBlock := by
  intro x s hwf hle
  refine ⟨decode_encode (.save x), ?_⟩
  have hfits : s.I.toNat + (registerBlock s x).length ≤ memSize := by
    rw [registerBlock_length, memSize]
    omega
  obtain ⟨a, ha, hadv⟩ :=
    advanceIndex_of_le (s := { s with mem := Memory.writeRun s.mem s.I.toNat (registerBlock s x) }) hle
  have hexec := exec_save_of_le (registerBlock_length s x ▸ hfits)
  rw [hadv, settle_ok] at hexec
  refine ⟨_, hexec, ?_, ha, fun k hk => ?_, fun b hb => ?_⟩
  · exact ((keeps_setMem s _).mono (by simp)).trans ((keeps_setIndex _ a).mono (by simp))
  · have hlt : k.toNat < (registerBlock s x).length := by rw [registerBlock_length]; omega
    exact (Memory.read_writeRun_inside hwf hfits hlt).trans (registerBlock_getElem s x k hlt)
  · exact Memory.read_writeRun_outside hwf hfits (by rw [registerBlock_length]; omega)

/-- Settles O45: the block is one load of registers, and the advance then sets `I` alone. -/
theorem loadReadsRegisterBlock : Obligations.LoadReadsRegisterBlock := by
  intro x s hle
  refine ⟨decode_encode (.load x), ?_⟩
  have hfits : s.I.toNat + (x.toNat + 1) ≤ memSize := by
    rw [memSize]
    omega
  obtain ⟨a, ha, hadv⟩ := advanceIndex_of_le (s := { s with V := loadRegs s.V 0 (memoryBlock s x) }) hle
  have hexec := exec_load_of_le hfits
  rw [hadv, settle_ok] at hexec
  refine ⟨_, hexec, ?_, ha, reg_loadRegs_memoryBlock s x⟩
  exact ((keeps_setV s _).mono (by simp)).trans ((keeps_setIndex _ a).mono (by simp))

/-- Settles O46: the block leaves the address space, or it fits and its index advance does. -/
theorem blockPastTopStops : Obligations.BlockPastTopStops := by
  refine fun x s => ⟨fun hgt => ?_, fun ⟨htop, hon⟩ => ?_⟩
  · have hpast : memSize < s.I.toNat + (x.toNat + 1) := Nat.succ_lt_succ hgt
    exact ⟨stopsWith_of_exec (exec_save_of_gt hpast), stopsWith_of_exec (exec_load_of_gt hpast)⟩
  · have hfits : s.I.toNat + (x.toNat + 1) ≤ memSize := (congrArg (· + 1) htop).le
    have hsave := exec_save_of_le hfits
    have hload := exec_load_of_le hfits
    rw [advanceIndex_of_top (by exact htop) (by exact hon), settle_error] at hsave hload
    exact ⟨stopsWith_of_exec hsave, stopsWith_of_exec hload⟩

end Sys2Proof.Machine
end

section
/-! The masks of a sprite: the sprite bit that falls on each grid position, for one pixel, one row and the whole sprite
(43_display.md R193). -/

namespace Sys2Proof.Machine

/-- The sprite bit that falls on a grid position, off where the sprite does not reach (43_display.md R193). -/
def spriteAt (ox oy : Nat) (sprite : List Byte) (row col : Nat) : Bool :=
  decide (oy ≤ row ∧ row < oy + sprite.length ∧ ox ≤ col ∧ col < ox + 8) &&
    spriteBit (sprite.getD (row - oy) 0x00#8) (col - ox)

/-- What the first `k` columns of one row byte draw on grid row `row₀`. -/
def rowAt (ox row₀ : Nat) (b : Byte) (k row col : Nat) : Bool :=
  decide (row = row₀ ∧ ox ≤ col ∧ col < ox + k) && spriteBit b (col - ox)

/-- What sprite column `c` of one row byte draws on grid row `row₀`. -/
def columnAt (ox row₀ : Nat) (b : Byte) (c row col : Nat) : Bool :=
  decide (row = row₀ ∧ col = ox + c) && spriteBit b c

theorem spriteAt_nil (ox oy row col : Nat) : spriteAt ox oy [] row col = false := by
  simp only [spriteAt, List.length_nil, Bool.and_eq_false_iff, decide_eq_false_iff_not]
  omega

theorem rowAt_zero (ox row₀ row col : Nat) (b : Byte) : rowAt ox row₀ b 0 row col = false := by
  simp only [rowAt, Bool.and_eq_false_iff, decide_eq_false_iff_not]
  omega

theorem rowAt_succ (ox row₀ k row col : Nat) (b : Byte) :
    rowAt ox row₀ b (k + 1) row col = (rowAt ox row₀ b k row col || columnAt ox row₀ b k row col) := by
  by_cases hcol : col = ox + k
  · simp [rowAt, columnAt, hcol]
  · have hlt : col < ox + (k + 1) ↔ col < ox + k := by omega
    simp [rowAt, columnAt, hcol, hlt]

theorem rowAt_disjoint_columnAt (ox row₀ k row col : Nat) (b : Byte) (h : rowAt ox row₀ b k row col = true) :
    columnAt ox row₀ b k row col = false := by
  simp only [rowAt, Bool.and_eq_true, decide_eq_true_eq] at h
  simp only [columnAt, Bool.and_eq_false_iff, decide_eq_false_iff_not]
  omega

theorem spriteAt_cons (ox oy row col : Nat) (b : Byte) (bs : List Byte) :
    spriteAt ox oy (b :: bs) row col = (rowAt ox oy b 8 row col || spriteAt ox (oy + 1) bs row col) := by
  by_cases hrow : row = oy
  · simp [spriteAt, rowAt, hrow]
  · by_cases hlow : row < oy
    · simp [spriteAt, rowAt, hrow, Nat.not_le_of_lt hlow, Nat.not_le_of_lt (Nat.lt_succ_of_lt hlow)]
    · obtain ⟨r, rfl⟩ : ∃ r, row = oy + 1 + r := ⟨row - (oy + 1), by omega⟩
      have hindex : oy + 1 + r - oy = r + 1 := by omega
      have hrows : oy + 1 + r < oy + (bs.length + 1) ↔ oy + 1 + r < oy + 1 + bs.length := by omega
      have hge : oy ≤ oy + 1 + r := by omega
      simp [spriteAt, rowAt, hrow, hindex, hrows, hge]

theorem rowAt_disjoint_spriteAt (ox oy row col : Nat) (b : Byte) (bs : List Byte)
    (h : rowAt ox oy b 8 row col = true) : spriteAt ox (oy + 1) bs row col = false := by
  simp only [rowAt, Bool.and_eq_true, decide_eq_true_eq] at h
  simp only [spriteAt, Bool.and_eq_false_iff, decide_eq_false_iff_not]
  omega

end Sys2Proof.Machine
end

section
/-! Drawing a mask, and that the blit draws the mask of its sprite (43_display.md R194). -/

namespace Sys2Proof.Machine

/-- A position a mask draws, inside the grid. -/
def Draws (mask : Nat → Nat → Bool) (row col : Nat) : Prop := row < 32 ∧ col < 64 ∧ mask row col = true

/-- `acc'` is `acc` with a mask drawn: its positions inside the grid XORed, and the collision bit raised where one of them
was on (43_display.md R194). -/
structure Drawn (mask : Nat → Nat → Bool) (acc acc' : Framebuffer × Bool) : Prop where
  pixel : ∀ row col, row < 32 → col < 64 →
    Framebuffer.pixel acc'.1 row col = (Framebuffer.pixel acc.1 row col ^^ mask row col)
  collision : acc'.2 = true ↔
    acc.2 = true ∨ ∃ row col, Draws mask row col ∧ Framebuffer.pixel acc.1 row col = true

theorem drawn_refl {mask : Nat → Nat → Bool} (h : ∀ row col, mask row col = false) (acc : Framebuffer × Bool) :
    Drawn mask acc acc where
  pixel := by simp [h]
  collision := by simp [Draws, h]

/-- Two masks with no position in common, drawn one after the other, are their union drawn: the second meets none of the
pixels the first has changed. -/
theorem Drawn.trans {f g u : Nat → Nat → Bool} {acc acc' acc'' : Framebuffer × Bool} (hf : Drawn f acc acc')
    (hg : Drawn g acc' acc'') (hunion : ∀ row col, u row col = (f row col || g row col))
    (hdisjoint : ∀ row col, f row col = true → g row col = false) : Drawn u acc acc'' where
  pixel row col hrow hcol := by
    rw [hg.pixel row col hrow hcol, hf.pixel row col hrow hcol, hunion]
    cases hfrc : f row col with
    | false => simp
    | true => simp [hdisjoint row col hfrc]
  collision := by
    have hold (row col : Nat) : Draws g row col ∧ Framebuffer.pixel acc'.1 row col = true ↔
        Draws g row col ∧ Framebuffer.pixel acc.1 row col = true := by
      refine and_congr_right fun ⟨hrow, hcol, hgrc⟩ => ?_
      cases hfrc : f row col with
      | false => rw [hf.pixel row col hrow hcol, hfrc, Bool.xor_false]
      | true => simp [hdisjoint row col hfrc] at hgrc
    have hdraws (row col : Nat) : Draws u row col ↔ Draws f row col ∨ Draws g row col := by
      simp only [Draws, hunion, Bool.or_eq_true, and_or_left]
    simp only [hg.collision, hf.collision, hold, hdraws, or_and_right, exists_or, or_assoc]

theorem blitPixel_drawn (ox oy r c : Nat) (b : Byte) (acc : Framebuffer × Bool) :
    Drawn (columnAt ox (oy + r) b c) acc (blitPixel ox oy r b acc c) := by
  unfold blitPixel
  split
  next hout =>
    have hskip (row col : Nat) (hrow : row < 32) (hcol : col < 64) : columnAt ox (oy + r) b c row col = false := by
      simp only [columnAt, Bool.and_eq_false_iff, decide_eq_false_iff_not]
      omega
    refine ⟨fun row col hrow hcol => by simp [hskip row col hrow hcol], ?_⟩
    simp only [iff_self_or]
    rintro ⟨row, col, ⟨hrow, hcol, hmask⟩, -⟩
    simp [hskip row col hrow hcol] at hmask
  next hin =>
    have hrow₀ : oy + r < 32 := by omega
    have hcol₀ : ox + c < 64 := by omega
    constructor
    · intro row col hrow hcol
      rw [Framebuffer.pixel_setPixel]
      by_cases hat : row = oy + r ∧ col = ox + c
      · obtain ⟨rfl, rfl⟩ := hat
        simp [columnAt, hrow₀, hcol₀]
      · rw [if_neg fun h => hat ⟨h.1, h.2.1⟩]
        simp [columnAt, hat]
    · have hdraws (row col : Nat) : Draws (columnAt ox (oy + r) b c) row col ↔
          row = oy + r ∧ col = ox + c ∧ spriteBit b c = true := by
        simp only [Draws, columnAt, Bool.and_eq_true, decide_eq_true_eq, and_assoc]
        refine ⟨fun ⟨_, _, hat⟩ => hat, ?_⟩
        rintro ⟨rfl, rfl, hbit⟩
        exact ⟨hrow₀, hcol₀, rfl, rfl, hbit⟩
      simp [hdraws, and_comm]

theorem blitRow_drawn (ox oy r : Nat) (b : Byte) (acc : Framebuffer × Bool) :
    Drawn (rowAt ox (oy + r) b 8) acc (blitRow ox oy r b acc) := by
  have hcolumns (k : Nat) :
      Drawn (rowAt ox (oy + r) b k) acc ((List.range k).foldl (blitPixel ox oy r b) acc) := by
    induction k with
    | zero => exact drawn_refl (fun row col => rowAt_zero ox _ row col b) acc
    | succ k ih =>
      rw [List.range_succ, List.foldl_append]
      exact ih.trans (blitPixel_drawn ox oy r k b _) (fun row col => rowAt_succ ox _ k row col b)
        fun row col => rowAt_disjoint_columnAt ox _ k row col b
  exact hcolumns 8

theorem blitRows_drawn (ox oy r : Nat) (acc : Framebuffer × Bool) (sprite : List Byte) :
    Drawn (spriteAt ox (oy + r) sprite) acc (blitRows ox oy r acc sprite) := by
  induction sprite generalizing r acc with
  | nil => exact drawn_refl (spriteAt_nil ox _) acc
  | cons b bs ih =>
    exact (blitRow_drawn ox oy r b acc).trans (ih (r + 1) _) (fun row col => spriteAt_cons ox _ row col b bs)
      fun row col => rowAt_disjoint_spriteAt ox _ row col b bs

theorem blit_drawn (fb : Framebuffer) (ox oy : Nat) (sprite : List Byte) :
    Drawn (spriteAt ox oy sprite) (fb, false) (blit fb ox oy sprite) :=
  blitRows_drawn ox oy 0 (fb, false) sprite

/-- A grid position the sprite draws, by the sprite row and column of its bit. -/
theorem exists_draws_spriteAt_iff (ox oy : Nat) (sprite : List Byte) (p : Nat → Nat → Prop) :
    (∃ row col, Draws (spriteAt ox oy sprite) row col ∧ p row col) ↔
      ∃ r c, r < sprite.length ∧ c < 8 ∧ ox + c ≤ 63 ∧ oy + r ≤ 31 ∧
        spriteBit (sprite.getD r 0x00#8) c = true ∧ p (oy + r) (ox + c) := by
  constructor
  · rintro ⟨row, col, ⟨hrow, hcol, hbit⟩, hp⟩
    simp only [spriteAt, Bool.and_eq_true, decide_eq_true_eq] at hbit
    obtain ⟨⟨hoy, hlen, hox, hwidth⟩, hbit⟩ := hbit
    refine ⟨row - oy, col - ox, by omega, by omega, by omega, by omega, hbit, ?_⟩
    rwa [Nat.add_sub_cancel' hoy, Nat.add_sub_cancel' hox]
  · rintro ⟨r, c, hr, hc, hcol, hrow, hbit, hp⟩
    refine ⟨oy + r, ox + c, ⟨by omega, by omega, ?_⟩, hp⟩
    simpa [spriteAt, hr, hc] using hbit

theorem blit_collision (fb : Framebuffer) (ox oy : Nat) (sprite : List Byte) :
    (blit fb ox oy sprite).2 = true ↔
      ∃ row col, Draws (spriteAt ox oy sprite) row col ∧ Framebuffer.pixel fb row col = true := by
  simpa using (blit_drawn fb ox oy sprite).collision

end Sys2Proof.Machine
end

section
/-! The obligations on the blit. -/

namespace Sys2Proof.Machine

/-- Settles O50: the blit draws the mask of its sprite (`blit_drawn`). -/
theorem blitXorsInBoundsPixels : Obligations.BlitXorsInBoundsPixels := fun fb ox oy sprite =>
  ⟨(blit_drawn fb ox oy sprite).pixel,
    (blit_collision fb ox oy sprite).trans (exists_draws_spriteAt_iff ox oy sprite _)⟩

/-- Settles O51: a mask XORed twice cancels, and where the first draw met no pixel that was on it has turned on every
position it draws. -/
theorem blitTwiceRestores : Obligations.BlitTwiceRestores := by
  intro fb ox oy sprite
  have hfirst := (blit_drawn fb ox oy sprite).pixel
  refine ⟨?_, fun hclear => ?_⟩
  · refine Framebuffer.ext_pixel _ _ fun row col hrow hcol => ?_
    rw [(blit_drawn _ ox oy sprite).pixel row col hrow hcol, hfirst row col hrow hcol]
    simp
  · have hon (row col : Nat) (hdraws : Draws (spriteAt ox oy sprite) row col) :
        Framebuffer.pixel (blit fb ox oy sprite).1 row col = true := by
      have hoff : Framebuffer.pixel fb row col ≠ true := fun h =>
        Bool.eq_false_iff.mp hclear ((blit_collision fb ox oy sprite).mpr ⟨row, col, hdraws, h⟩)
      obtain ⟨hrow, hcol, hmask⟩ := hdraws
      rw [hfirst row col hrow hcol, hmask, Bool.eq_false_iff.mpr hoff, Bool.false_xor]
    have hall := exists_draws_spriteAt_iff ox oy sprite fun _ _ => True
    simp only [and_true] at hall
    rw [blit_collision]
    exact (exists_congr fun row => exists_congr fun col => and_iff_left_of_imp (hon row col)).trans hall

end Sys2Proof.Machine
end

section
/-! `Present` after an instruction's own effect (50_cycle.md R256; 60_exceptions.md R318). -/

namespace Sys2Proof.Machine

variable {s u : State} {c : List Part}

@[simp] theorem State.present_fb (s : State) : s.present.fb = s.fb := by
  rcases present_cases s with ⟨-, h⟩ | ⟨-, h⟩ <;> rw [h]

@[simp] theorem State.present_V (s : State) : s.present.V = s.V := by
  rcases present_cases s with ⟨-, h⟩ | ⟨-, h⟩ <;> rw [h]

@[simp] theorem State.present_host (s : State) : s.present.host = s.host.takeSink.2 := by
  rcases present_cases s with ⟨-, h⟩ | ⟨-, h⟩ <;> rw [h]

theorem State.reg_present (s : State) (k : Nibble) : s.present.reg k = s.reg k :=
  State.reg_congr s s.present s.present_V k

theorem State.present_of_ok (h : s.host.takeSink.1 = .ok) :
    s.present.out = s.out ++ [.present s.fb] ∧ Keeps [.out, .host] s s.present := by
  rcases present_cases s with ⟨-, hp⟩ | ⟨hfail, -⟩
  · rw [hp]
    exact ⟨rfl, keeps_setOutHost s _ _⟩
  · simp [h] at hfail

theorem State.present_of_failure (h : s.host.takeSink.1 = .failure) :
    s.present.out = s.out ++ [.present s.fb, .hostFailure .renderSink] ∧ s.present.phase = .stopped ∧
      s.present.keyWait = none ∧ Keeps [.out, .host, .phase, .keyWait] s s.present := by
  rcases present_cases s with ⟨hok, -⟩ | ⟨-, hp⟩
  · simp [h] at hok
  · rw [hp]
    refine ⟨by simp, rfl, rfl, ?_⟩
    exact ((keeps_setOutHost s (s.out ++ [.present s.fb]) s.host.takeSink.2).mono (by simp)).trans
      ((State.hostFailure_keeps _ .renderSink).mono (by simp [hostStopParts]))

/-- `Present` in a state `u` that differs from `s` in the pieces `c`, neither the outputs nor the host among them. -/
theorem Keeps.present (h : Keeps c s u) (hout : Part.out ∉ c) (hhost : Part.host ∉ c) :
    u.present.host = s.host.takeSink.2 ∧
      (s.host.takeSink.1 = .ok →
        u.present.out = s.out ++ [.present u.present.fb] ∧ Keeps (c ++ [.out, .host]) s u.present) ∧
      (s.host.takeSink.1 = .failure →
        u.present.out = s.out ++ [.present u.present.fb, .hostFailure .renderSink] ∧ u.present.phase = .stopped ∧
          u.present.keyWait = none ∧ Keeps (c ++ [.out, .host, .phase, .keyWait]) s u.present) := by
  have houtEq : u.out = s.out := h .out hout
  have hhostEq : u.host = s.host := h .host hhost
  rw [← houtEq, ← hhostEq, State.present_fb]
  refine ⟨u.present_host, fun hok => ?_, fun hfail => ?_⟩
  · obtain ⟨hshown, hkeeps⟩ := State.present_of_ok hok
    exact ⟨hshown, (h.mono (by simp)).trans (hkeeps.mono (by simp))⟩
  · obtain ⟨hshown, hphase, hwait, hkeeps⟩ := State.present_of_failure hfail
    exact ⟨hshown, hphase, hwait, (h.mono (by simp)).trans (hkeeps.mono (by simp))⟩

end Sys2Proof.Machine
end

section
/-! The two display instructions: the execute part, case by case, and their obligations (43_display.md R190, R192). -/

namespace Sys2Proof.Machine

variable {s : State}

theorem exec_cls (s : State) : exec .cls s = .next ({ s with fb := Framebuffer.clear } : State).present := rfl

/-- Settles O47: the cleared grid is presented (`Keeps.present`). -/
theorem clearBlanksAndPresents : Obligations.ClearBlanksAndPresents := fun x s =>
  ⟨decode_cls x, _, exec_cls s, fun row col => by rw [State.present_fb, Framebuffer.pixel_clear],
    (keeps_setFb s Framebuffer.clear).present (by simp) (by simp)⟩

theorem keeps_setFb_setReg (s : State) (fb : Framebuffer) (x : Nibble) (v : Byte) :
    Keeps [.fb, .regs] s (({ s with fb := fb } : State).setReg x v) :=
  ((keeps_setFb s fb).mono (by simp)).trans ((State.setReg_keeps _ x v).mono (by simp))

theorem collisionFlag_toNat (erased : Bool) : (collisionFlag erased).toNat = if erased then 1 else 0 := by
  cases erased <;> rfl

/-- The `n` bytes at `I` (43_display.md R193). -/
def spriteBytes (s : State) (n : Nibble) : List Byte :=
  (List.range n.toNat).map fun r => Memory.read s.mem (s.I.toNat + r)

theorem exec_drw_of_le {n : Nibble} (x y : Nibble) (h : s.I.toNat + n.toNat ≤ memSize) :
    exec (.drw x y n) s = .next (drawSprite x y (spriteBytes s n) s) := by
  simp only [exec, execDrw, effectiveAddress, Nat.add_zero, readBlock_ok _ s.mem _ h, settle_ok, spriteBytes]

theorem exec_drw_of_gt {n : Nibble} (x y : Nibble) (h : memSize < s.I.toNat + n.toNat) :
    exec (.drw x y n) s = .next (raiseFatal ⟨.memoryOutOfRange, some memSize⟩ s) := by
  simp only [exec, execDrw, effectiveAddress, Nat.add_zero, readBlock_error _ s.mem _ s.I.isLt.le h, settle_error]

/-- Settles O49: the sprite is read before any of it is drawn, so a row past the top is fatal (decision D7). -/
theorem drawPastTopStops : Obligations.DrawPastTopStops := fun x y _ _ h => stopsWith_of_exec (exec_drw_of_gt x y h)

/-- Settles O48: the blit and its flag change the framebuffer and the registers, and the result is presented. -/
theorem drawBlitsAndPresents : Obligations.DrawBlitsAndPresents := by
  intro x y n s h
  refine ⟨decode_encode (.drw x y n), _, _, exec_drw_of_le x y h, rfl, State.present_fb _, fun k => ?_, ?_⟩
  · rw [drawSprite, State.reg_present, State.reg_setReg, apply_ite BitVec.toNat, collisionFlag_toNat]
    rfl
  · exact (keeps_setFb_setReg s _ flagIndex _).present (by simp) (by simp)

end Sys2Proof.Machine
end

section
/-! The timer instructions: each is one write (44_keys_timers.md R216 to R218). -/

namespace Sys2Proof.Machine

theorem exec_ldVxDt (x : Nibble) (s : State) : exec (.ldVxDt x) s = .next (s.setReg x s.DT) := rfl

theorem exec_ldDtVx (x : Nibble) (s : State) : exec (.ldDtVx x) s = .next { s with DT := s.reg x } := rfl

theorem exec_ldStVx (x : Nibble) (s : State) : exec (.ldStVx x) s = .next { s with ST := s.reg x } := rfl

/-- Settles O27: the write is to a register, to `DT` or to `ST`, and each has its frame. -/
theorem timerInstructionsMoveOneByte : Obligations.TimerInstructionsMoveOneByte := fun x s =>
  ⟨⟨decode_encode (.ldVxDt x), setReg_writes_only (exec_ldVxDt x s)⟩,
    ⟨decode_encode (.ldDtVx x), _, exec_ldDtVx x s, rfl, keeps_setDelay s _⟩,
    ⟨decode_encode (.ldStVx x), _, exec_ldStVx x s, rfl, keeps_setBuzzer s _⟩⟩

end Sys2Proof.Machine
end

section
/-! The key instructions on an answer: the request is completed in the state the answer leaves (44_keys_timers.md R210 to
R214). -/

namespace Sys2Proof.Machine

/-- The key collaborator's answer is used and no request is pending; all else stands (50_cycle.md R253). -/
def State.answered (s : State) : State := { s with keyWait := none, host := s.host.takeKey.2 }

theorem State.answered_keeps (s : State) : Keeps [.keyWait, .host] s s.answered := keeps_setKeyWaitHost s _ _

theorem askKey_of_answer {s : State} {ans : KeyAnswer} (r : KeyRequest) (hans : answerOf s.host.takeKey.1 = some ans) :
    askKey r s = settle s.answered (finishKey r ans s.answered) := by
  unfold askKey
  cases hreply : s.host.takeKey.1 with
  | char c | nothing =>
    rw [hreply] at hans
    cases hans
    rfl
  | failure | notYet => simp [hreply, answerOf] at hans

/-- The key code is compared with all 8 bits (44_keys_timers.md R212, the spec's decision D24). -/
theorem pressed_iff (ans : KeyAnswer) (v : Byte) : pressed ans v = true ↔ ∃ k, ans = .key k ∧ k.toNat = v.toNat := by
  cases ans <;> simp [pressed]

theorem eq_pressed {ans : KeyAnswer} {v : Byte} {p : Bool} (hp : p = true ↔ ∃ k, ans = .key k ∧ k.toNat = v.toNat) :
    p = pressed ans v :=
  Bool.eq_iff_iff.mpr (hp.trans (pressed_iff ans v).symm)

section
variable {i : Instr} {x : Nibble} {s : State} {ans : KeyAnswer} {p : Bool}

theorem exec_skp_of_answer (hans : answerOf s.host.takeKey.1 = some ans)
    (hp : p = true ↔ ∃ k, ans = .key k ∧ k.toNat = (s.reg x).toNat) :
    exec (.skp x) s = .next (settle s.answered (skipIf p s.answered)) := by
  rw [eq_pressed hp]
  exact congrArg _ (askKey_of_answer (.skipIfPressed x) hans)

theorem exec_sknp_of_answer (hans : answerOf s.host.takeKey.1 = some ans)
    (hp : p = true ↔ ∃ k, ans = .key k ∧ k.toNat = (s.reg x).toNat) :
    exec (.sknp x) s = .next (settle s.answered (skipIf (!p) s.answered)) := by
  rw [eq_pressed hp]
  exact congrArg _ (askKey_of_answer (.skipIfNotPressed x) hans)

theorem keySkip_stops_of_taken (hexec : exec i s = .next (settle s.answered (skipIf true s.answered)))
    (htop : maxAddr < s.pc.toNat + 2) :
    ∃ t, exec i s = .next t ∧ StopsWith .addressOverflow (some (s.pc.toNat + 2)) s t := by
  rcases skipIf_cases true s.answered with ⟨hfalse, -⟩ | ⟨-, hle, -⟩ | ⟨-, -, hskip⟩
  · cases hfalse
  · exact absurd hle (Nat.not_le.mpr htop)
  · rw [hskip, settle_error] at hexec
    exact ⟨_, hexec, raiseFatal_stopsWith _ s.answered⟩

theorem keySkip_keeps_of_not_taken (hexec : exec i s = .next (settle s.answered (skipIf false s.answered))) :
    ∃ t, exec i s = .next t ∧ t.keyWait = none ∧ Keeps [.keyWait, .host] s t :=
  ⟨s.answered, hexec, rfl, s.answered_keeps⟩

theorem keySkip_pc_of_le (hexec : exec i s = .next (settle s.answered (skipIf p s.answered)))
    (hle : s.pc.toNat + 2 ≤ maxAddr) :
    ∃ t, exec i s = .next t ∧ t.pc.toNat = s.pc.toNat + (if p then 2 else 0) ∧ t.keyWait = none ∧
      t.host = s.host.takeKey.2 ∧ Keeps [.pc, .keyWait, .host] s t := by
  have hanswered : Keeps [.pc, .keyWait, .host] s s.answered := s.answered_keeps.mono (by simp)
  rcases skipIf_cases p s.answered with ⟨rfl, hskip⟩ | ⟨rfl, -, a, ha, hskip⟩ | ⟨-, hgt, -⟩
  · rw [hskip, settle_ok] at hexec
    exact ⟨_, hexec, rfl, rfl, rfl, hanswered⟩
  · rw [hskip, settle_ok] at hexec
    exact ⟨_, hexec, ha, rfl, rfl, hanswered.trans ((keeps_setPc _ a).mono (by simp))⟩
  · exact absurd hle (Nat.not_le.mpr hgt)

theorem exec_ldVxK_of_key {k : Nibble} (hans : answerOf s.host.takeKey.1 = some (.key k)) :
    exec (.ldVxK x) s = .next (s.answered.setReg x (k.setWidth 8)) :=
  congrArg _ (askKey_of_answer (.bind x) hans)

theorem exec_ldVxK_of_noKey (hans : answerOf s.host.takeKey.1 = some .noKey) :
    exec (.ldVxK x) s = .next s.answered :=
  congrArg _ (askKey_of_answer (.bind x) hans)

end

/-- Settles O54: of the two skips on one answer the one taken stops, the other only uses the answer. -/
theorem takenKeySkipPastTopStops : Obligations.TakenKeySkipPastTopStops := by
  intro x s ans p hans htop hp
  have hskp := exec_skp_of_answer hans hp
  have hsknp := exec_sknp_of_answer hans hp
  cases p with
  | true =>
    rw [if_pos rfl]
    exact ⟨keySkip_stops_of_taken hskp htop, keySkip_keeps_of_not_taken hsknp⟩
  | false =>
    rw [if_neg Bool.false_ne_true]
    exact ⟨keySkip_keeps_of_not_taken hskp, keySkip_stops_of_taken hsknp htop⟩

/-- Settles O53: the rule of `keySkip_pc_of_le` at the condition of each skip. -/
theorem keySkipsCompareAnswer : Obligations.KeySkipsCompareAnswer := by
  intro x s ans p hans hle hp
  refine ⟨⟨decode_encode (.skp x), keySkip_pc_of_le (exec_skp_of_answer hans hp) hle⟩,
    ⟨decode_encode (.sknp x), ?_⟩⟩
  simpa only [Bool.not_eq_true', ← Bool.not_eq_true, ite_not] using keySkip_pc_of_le (exec_sknp_of_answer hans hp) hle

/-- Settles O55: a key is one register write after the answer is used, no key is none. -/
theorem keyReadBindsOnlyAKey : Obligations.KeyReadBindsOnlyAKey := by
  intro x s ans hans
  refine ⟨decode_encode (.ldVxK x), ?_⟩
  have hanswered : Keeps [.regs, .keyWait, .host] s s.answered := s.answered_keeps.mono (by simp)
  cases ans with
  | key k =>
    refine ⟨_, exec_ldVxK_of_key hans, ?_, nofun, fun j hj => State.reg_setReg_of_ne s.answered x j _ hj, rfl, rfl,
      hanswered.trans ((State.setReg_keeps _ x _).mono (by simp))⟩
    rintro k' ⟨⟩
    rw [State.reg_setReg_same, BitVec.toNat_setWidth_of_le (by decide)]
  | noKey => exact ⟨_, exec_ldVxK_of_noKey hans, nofun, fun _ => rfl, fun _ _ => rfl, rfl, rfl, hanswered⟩

end Sys2Proof.Machine
end

section
/-! A cycle below the top of memory, and the word that decodes to no instruction (45_unknown.md R230). -/

namespace Sys2Proof.Machine

variable {s : State} {w : Word}

/-- With no request pending and `pc` below the top two addresses a step of the run executes the fetched word in the state
with `pc` advanced, then the timers have their turn (50_cycle.md R244 to R247). -/
theorem step_of_fetched (hs : s.phase = .running) (hwait : s.keyWait = none) (hpc : s.pc.toNat + 2 ≤ maxAddr)
    (hw : w = wordOfBytes (Memory.read s.mem s.pc.toNat) (Memory.read s.mem (s.pc.toNat + 1))) :
    step s = thenTimers (executeFetched (.word w (s.fetched w))) := by
  simp only [step, hs, cpuStep, hwait, fetchAndAdvance_ok s hpc, hw]

theorem executeFetched_of_unknown (hd : decode w = .unknown w) (s : State) :
    executeFetched (.word w s) = .next (unknownInstruction w s) := by
  simp only [executeFetched, hd]

/-- Settles O17: the stop is raised in the fetched state, which holds the word and its address, and the timers keep the
record and the report. -/
theorem unknownWordStopsRun : Obligations.UnknownWordStopsRun := by
  intro s w hs hwait hpc hw hd
  have hstep : step s = .next (unknownInstruction w (s.fetched w)).timerPhase := by
    rw [step_of_fetched hs hwait hpc hw, executeFetched_of_unknown hd, thenTimers]
  exact ⟨_, faultRecord .unknownInstruction (some w.toNat) (s.fetched w), hstep, rfl, rfl, rfl, rfl, rfl, rfl, rfl⟩

end Sys2Proof.Machine
end

section
/-! The shared operations beside the timer counters: what they compute does not depend on the counters, and what they raise
is the same for every value of them. -/

namespace Sys2Proof.Machine

/-- The state with the two counters at given values, all else the same. -/
def State.withTimers (s : State) (d b : Byte) : State := { s with DT := d, ST := b }

@[simp] theorem State.withTimers_pc (s : State) (d b : Byte) : (s.withTimers d b).pc = s.pc := rfl
@[simp] theorem State.withTimers_I (s : State) (d b : Byte) : (s.withTimers d b).I = s.I := rfl
@[simp] theorem State.withTimers_reg (s : State) (d b : Byte) (x : Nibble) : (s.withTimers d b).reg x = s.reg x := rfl
@[simp] theorem State.withTimers_config (s : State) (d b : Byte) : (s.withTimers d b).config = s.config := rfl
@[simp] theorem State.withTimers_host (s : State) (d b : Byte) : (s.withTimers d b).host = s.host := rfl

@[simp] theorem jumpOffsetIndex_withTimers (s : State) (nnn : Addr) (d b : Byte) :
    jumpOffsetIndex (s.withTimers d b) nnn = jumpOffsetIndex s nnn := rfl

theorem skipIf_withTimers (c : Bool) (s : State) (d b : Byte) :
    skipIf c (s.withTimers d b) = (skipIf c s).map (·.withTimers d b) := by
  cases c with
  | true =>
    simp only [skipIf, takeSkip, if_true, State.withTimers_pc]
    cases chk12 (s.pc.toNat + 2) <;> rfl
  | false => rfl

theorem advanceIndex_withTimers (s : State) (x : Nibble) (d b : Byte) :
    advanceIndex (s.withTimers d b) x = (advanceIndex s x).map (·.withTimers d b) := by
  cases hadvance : s.config.indexAdvance with
  | true =>
    simp only [advanceIndex, State.withTimers_config, State.withTimers_I, hadvance, if_true]
    cases chk12 (s.I.toNat + x.toNat + 1) <;> rfl
  | false => simp [advanceIndex, hadvance, Except.map]

theorem State.present_withTimers (s : State) (d b : Byte) :
    (s.withTimers d b).present = s.present.withTimers d b := by
  simp only [State.present, State.withTimers_host]
  cases s.host.takeSink.1 <;> rfl

theorem drawSprite_withTimers (x y : Nibble) (sprite : List Byte) (s : State) (d b : Byte) :
    drawSprite x y sprite (s.withTimers d b) = (drawSprite x y sprite s).withTimers d b :=
  State.present_withTimers (State.setReg { s with fb := _ } flagIndex _) d b

theorem finishKey_withTimers (r : KeyRequest) (a : KeyAnswer) (s : State) (d b : Byte) :
    finishKey r a (s.withTimers d b) = (finishKey r a s).map (·.withTimers d b) := by
  cases r with
  | skipIfPressed x => exact skipIf_withTimers _ s d b
  | skipIfNotPressed x => exact skipIf_withTimers _ s d b
  | bind x => cases a <;> rfl

theorem settle_withTimers {r : Except Raised State} (h : (settle s r).phase = .running) (u : State) (d b : Byte) :
    settle u (r.map (·.withTimers d b)) = (settle s r).withTimers d b := by
  cases r with
  | ok t => rfl
  | error e => cases h

theorem settle_advanceIndex_withTimers {u s : State} {x : Nibble} (h : (settle u (advanceIndex s x)).phase = .running)
    (v : State) (d b : Byte) :
    settle v (advanceIndex (s.withTimers d b) x) = (settle u (advanceIndex s x)).withTimers d b := by
  rw [advanceIndex_withTimers, settle_withTimers h]

theorem askKey_withTimers (r : KeyRequest) (s : State) (d b : Byte) (h : (askKey r s).phase = .running) :
    askKey r (s.withTimers d b) = (askKey r s).withTimers d b := by
  unfold askKey at h ⊢
  rw [State.withTimers_host]
  cases hreply : s.host.takeKey.1 with
  | char c | nothing =>
    simp only [hreply] at h ⊢
    rw [← settle_withTimers h, ← finishKey_withTimers]
    rfl
  | failure | notYet => rfl

end Sys2Proof.Machine
end

section
/-! The instructions beside the timer counters: all but the three timer instructions ignore them (50_cycle.md R242). -/

namespace Sys2Proof.Machine

variable {i : Instr} {s t : State}

/-- Executing `i` gives the same, whatever the counters hold, and leaves them as they are, while the run goes on. -/
def IgnoresTimers (i : Instr) : Prop :=
  ∀ (s t : State) (d b : Byte), exec i s = .next t → t.phase = .running →
    exec i (s.withTimers d b) = .next (t.withTimers d b)

theorem ignoresTimers_of_next {f : State → State} (hexec : ∀ s, exec i s = .next (f s))
    (hf : ∀ s d b, (f s).phase = .running → f (s.withTimers d b) = (f s).withTimers d b) : IgnoresTimers i := by
  intro s t d b h ht
  cases (hexec s).symm.trans h
  rw [hexec, hf s d b ht]

theorem ignoresTimers_of_settle {c : State → Except Raised State} (hexec : ∀ s, exec i s = .next (settle s (c s)))
    (hc : ∀ s d b, c (s.withTimers d b) = (c s).map (·.withTimers d b)) : IgnoresTimers i :=
  ignoresTimers_of_next hexec fun s d b h => by rw [hc, settle_withTimers h]

/-- An instruction that raises a condition unless its operands fit, which the counters have no part in. -/
theorem ignoresTimers_of_branches {fits : State → Prop} {f : State → State} {e : State → Raised}
    (hok : ∀ s, fits s → exec i s = .next (f s)) (herr : ∀ s, ¬ fits s → exec i s = .next (raiseFatal (e s) s))
    (hfits : ∀ s d b, fits s → fits (s.withTimers d b))
    (hf : ∀ s d b, (f s).phase = .running → f (s.withTimers d b) = (f s).withTimers d b) : IgnoresTimers i := by
  intro s t d b h ht
  by_cases hs : fits s
  · cases (hok s hs).symm.trans h
    rw [hok _ (hfits s d b hs), hf s d b ht]
  · cases (herr s hs).symm.trans h
    cases ht

theorem ignoresTimers_of_askKey {r : KeyRequest} (hexec : ∀ s, exec i s = .next (askKey r s)) : IgnoresTimers i :=
  ignoresTimers_of_next hexec fun s d b h => askKey_withTimers r s d b h

/-- The ownership rule: only the three timer instructions read or write a counter (50_cycle.md R242). -/
theorem ignoresTimers (i : Instr) (hi : ∀ x, i ≠ .ldVxDt x ∧ i ≠ .ldDtVx x ∧ i ≠ .ldStVx x) : IgnoresTimers i := by
  cases i with
  | ldVxDt x => exact absurd rfl (hi x).1
  | ldDtVx x => exact absurd rfl (hi x).2.1
  | ldStVx x => exact absurd rfl (hi x).2.2
  | jp _ | ldImm _ _ | addImm _ _ | ldReg _ _ | orReg _ _ | andReg _ _ | xorReg _ _ | addReg _ _ | subReg _ _
  | shr _ _ | subn _ _ | shl _ _ | ldI _ | ldF _ | rnd _ _ =>
    exact ignoresTimers_of_next (fun _ => rfl) fun _ _ _ _ => rfl
  | cls => exact ignoresTimers_of_next exec_cls fun s d b _ => State.present_withTimers { s with fb := _ } d b
  | skp _ | sknp _ | ldVxK _ => exact ignoresTimers_of_askKey fun _ => rfl
  | seImm _ _ | sneImm _ _ | seReg _ _ | sneReg _ _ =>
    exact ignoresTimers_of_settle (fun _ => rfl) fun s d b => skipIf_withTimers _ s d b
  | ret =>
    intro s t d b h ht
    rcases pop_cases s with ⟨hempty, -⟩ | ⟨rest, a, hstack, -⟩
    · cases (exec_ret_of_empty hempty).symm.trans h
      cases ht
    · cases (exec_ret_of_append hstack).symm.trans h
      exact exec_ret_of_append (s := s.withTimers d b) hstack
  | call nnn =>
    exact ignoresTimers_of_branches (fun _ => exec_call_of_room nnn) (fun _ h => exec_call_of_limit nnn (not_not.mp h))
      (fun _ _ _ h => h) fun _ _ _ _ => rfl
  | jpV0 nnn =>
    refine ignoresTimers_of_settle (fun _ => rfl) fun s d b => ?_
    simp only [jumpOffsetIndex_withTimers, State.withTimers_reg]
    cases chk12 (nnn.toNat + (s.reg (jumpOffsetIndex s nnn)).toNat) <;> rfl
  | addI x =>
    refine ignoresTimers_of_settle (fun _ => rfl) fun s d b => ?_
    simp only [State.withTimers_I, State.withTimers_reg]
    cases chk12 (s.I.toNat + (s.reg x).toNat) <;> rfl
  | ldB x =>
    exact ignoresTimers_of_branches (fun _ => exec_ldB_of_le) (fun _ h => exec_ldB_of_gt (Nat.not_le.mp h))
      (fun _ _ _ h => h) fun _ _ _ _ => rfl
  | save x =>
    exact ignoresTimers_of_branches (fun _ => exec_save_of_le) (fun _ h => exec_save_of_gt (Nat.not_le.mp h))
      (fun _ _ _ h => h) fun s d b h => settle_advanceIndex_withTimers (s := { s with mem := _ }) h _ d b
  | load x =>
    exact ignoresTimers_of_branches (fun _ => exec_load_of_le) (fun _ h => exec_load_of_gt (Nat.not_le.mp h))
      (fun _ _ _ h => h) fun s d b h => settle_advanceIndex_withTimers (s := { s with V := _ }) h _ d b
  | drw x y n =>
    exact ignoresTimers_of_branches (fun _ => exec_drw_of_le x y) (fun _ h => exec_drw_of_gt x y (Nat.not_le.mp h))
      (fun _ _ _ h => h) fun s d b _ => drawSprite_withTimers x y (spriteBytes s n) s d b

theorem Ended.started (h : Ended i s t) : t.started = s.started := by
  obtain ⟨u, hruns, hends⟩ := h
  cases hends <;> exact hruns.carries.started

theorem State.tick_eq_withTimers (hDT : t.DT = s.DT) (hST : t.ST = s.ST) (h : t.ticking = s.ticking) :
    t.tick = t.withTimers s.tick.DT s.tick.ST := by
  simp only [State.tick, State.withTimers, hDT, hST, h]

/-- Settles O22: the instruction leaves the counters as they are, so the tick sets them to the same values before it and
after it, and the instruction ignores what they are set to. -/
theorem cyclesCommuteWithTicks : Obligations.CyclesCommuteWithTicks := by
  intro i s t hi hs hexec ht
  have hkept : t.withTimers s.DT s.ST = t :=
    Host.Outcome.next.inj ((ignoresTimers i hi s t s.DT s.ST hexec ht).symm.trans hexec)
  have hticking : t.ticking = s.ticking := by
    rw [State.ticking, State.ticking, (ended_of_exec hexec).started, hs, ht]
  have hDT : t.DT = s.DT := (congrArg State.DT hkept).symm
  have hST : t.ST = s.ST := (congrArg State.ST hkept).symm
  rw [State.tick_eq_withTimers hDT hST hticking]
  exact ignoresTimers i hi s t s.tick.DT s.tick.ST hexec ht

end Sys2Proof.Machine
end

section
/-! A cycle of a decoded instruction, and the fetch and the advance at the top of memory (50_cycle.md R244 to R247). -/

namespace Sys2Proof.Machine

variable {s : State} {w : Word}

theorem executeFetched_of_known {i : Instr} (hd : decode w = .known i) (s : State) :
    executeFetched (.word w s) = exec i s := by
  simp only [executeFetched, hd]

theorem State.fetched_keeps (s : State) (w : Word) : Keeps [.pc, .fetch] s (s.fetched w) := by
  intro p hp
  cases p <;> simp_all [Part.same, State.reg]

theorem State.fetched_pc_toNat (w : Word) (hpc : s.pc.toNat + 2 ≤ maxAddr) :
    (s.fetched w).pc.toNat = s.pc.toNat + 2 := by
  rw [State.fetched_pc, BitVec.toNat_add]
  exact Nat.mod_eq_of_lt (Nat.lt_succ_of_le hpc)

/-- Settles O15: the state before the execute part is the fetched one, and the timers' turn is a number of ticks. -/
theorem stepRunsDecodedInstruction : Obligations.StepRunsDecodedInstruction := by
  intro s w i hs hwait hpc hw hd
  obtain ⟨t, hexec⟩ := exec_next i (s.fetched w)
  refine ⟨s.fetched w, t, State.fetched_pc_toNat w hpc, rfl, rfl, s.fetched_keeps w, rfl, rfl, hexec, ?_⟩
  rw [step_of_fetched hs hwait hpc hw, executeFetched_of_known hd, hexec, thenTimers, timerPhase_eq_ticks]

/-- At 0xFFF the second byte of the word lies past the top (decision D7). -/
theorem readWord_error_of_top (m : Memory) : readWord m maxAddr = .error ⟨.memoryOutOfRange, some memSize⟩ := rfl

theorem fetchAndAdvance_of_fetch_error {e : Raised} (hread : readWord s.mem s.pc.toNat = .error e) :
    fetchAndAdvance s = .stop (raiseFatal e { s with fetchAt := s.pc, fetchWord := none }) := by
  simp only [fetchAndAdvance, hread]

theorem fetchAndAdvance_of_advance_error {e : Raised} (hread : readWord s.mem s.pc.toNat = .ok w)
    (hadvance : chk12 (s.pc.toNat + 2) = .error e) :
    fetchAndAdvance s = .stop (raiseFatal e { s with fetchAt := s.pc, fetchWord := some w }) := by
  simp only [fetchAndAdvance, hread, hadvance]

/-- A cycle stopped in its fetch or advance keeps its record over the timers' turn. -/
theorem step_of_fetch_stop {e : Raised} {u : State} (hs : s.phase = .running) (hwait : s.keyWait = none)
    (hf : fetchAndAdvance s = .stop (raiseFatal e u)) :
    ∃ t, step s = .next t ∧ t.fatal = some (faultRecord e.cause e.info u) ∧ t.phase = .stopped := by
  refine ⟨(raiseFatal e u).timerPhase, ?_, rfl, rfl⟩
  simp only [step, hs, cpuStep, hwait, hf, executeFetched, thenTimers]

/-- Settles O16: at 0xFFF the read of the word raises, so the record holds none; at 0xFFE the word is read and `chk12` of the
advance raises. -/
theorem fetchStopsAtTopOfMemory : Obligations.FetchStopsAtTopOfMemory := by
  intro s hs hwait
  refine ⟨fun hpc => ?_, fun hpc => ?_⟩
  · have hread : readWord s.mem s.pc.toNat = .error ⟨.memoryOutOfRange, some memSize⟩ := by
      rw [hpc, readWord_error_of_top]
    exact step_of_fetch_stop hs hwait (fetchAndAdvance_of_fetch_error hread)
  · have hread : readWord s.mem s.pc.toNat = .ok (wordOfBytes (Memory.read s.mem 0xFFE) (Memory.read s.mem 0xFFF)) := by
      rw [hpc, readWord_ok s.mem 0xFFE (by decide), wordOfBytes]
    have hadvance : chk12 (s.pc.toNat + 2) = .error ⟨.addressOverflow, some 0x1000⟩ := by
      rw [hpc, chk12_error _ (by decide)]
    exact step_of_fetch_stop hs hwait (fetchAndAdvance_of_advance_error hread hadvance)

end Sys2Proof.Machine
end

section
/-! The key codes of characters (50_cycle.md R254). -/

namespace Sys2Proof.Machine

theorem keyOfChar_eq_noKey {c : Char} (hdigit : ¬ (0x30 ≤ c.toNat ∧ c.toNat ≤ 0x39))
    (hlower : ¬ (0x61 ≤ c.toNat ∧ c.toNat ≤ 0x66)) (hupper : ¬ (0x41 ≤ c.toNat ∧ c.toNat ≤ 0x46)) :
    keyOfChar c = .noKey := by
  rw [keyOfChar, if_neg hdigit, if_neg hlower, if_neg hupper]

/-- Settles O52: the 22 digits by their codes; outside the three ranges no branch of `keyOfChar` applies, since the order of
characters is the order of their codes. -/
theorem charactersMapToKeyCodes : Obligations.CharactersMapToKeyCodes :=
  ⟨by decide, by decide, fun _ => keyOfChar_eq_noKey⟩

end Sys2Proof.Machine
end

section
/-! The timer counters over single and repeated ticks (51_timers.md R272 to R274, R279). -/

namespace Sys2Proof.Machine

theorem countdown_toNat (c : Byte) (n : Nat) : (countdown c n).toNat = c.toNat - n := by
  unfold countdown
  split
  next hzero => simp [hzero]
  next =>
    have hlt : c.toNat - n < 2 ^ 8 := Nat.lt_of_le_of_lt (Nat.sub_le _ _) c.isLt
    rw [BitVec.toNat_ofNat, Nat.mod_eq_of_lt hlt]

theorem State.tick_eq_decay (s : State) : s.tick = s.decay 1 := (decay_eq_ticks 1 s).symm

theorem State.decay_keeps (s : State) (n : Nat) : Keeps [.delay, .buzzer] s (s.decay n) := by
  intro p hp
  cases p <;> simp_all [Part.same, State.reg]

theorem State.ticking_iff (s : State) : s.ticking = true ↔ s.started = true ∧ s.phase = .running := by
  simp [State.ticking]

/-- What `n` ticks at once leave in the counters of a run with the gate open. -/
theorem State.decay_counters {s : State} (h : s.started = true ∧ s.phase = .running) (n : Nat) :
    (s.decay n).DT.toNat = s.DT.toNat - n ∧ (s.decay n).ST.toNat = s.ST.toNat - n := by
  simp only [State.decay_DT, State.decay_ST, s.ticking_iff.mpr h, if_true, countdown_toNat, and_self]

/-- Settles O24: `n` ticks are one countdown by `n`, which subtracts on the naturals. -/
theorem repeatedTicksSaturate : Obligations.RepeatedTicksSaturate := by
  intro s n hstarted hs
  rw [← decay_eq_ticks]
  obtain ⟨hDT, hST⟩ := State.decay_counters ⟨hstarted, hs⟩ n
  exact ⟨hDT, hST, s.decay_keeps n⟩

/-- Settles O25: the read gives `V[y]` the counter, which `n` ticks took down from the value of `V[x]`. -/
theorem delayReadsBackLessTicks : Obligations.DelayReadsBackLessTicks := by
  intro s x y n hstarted hs
  refine ⟨_, _, exec_ldDtVx x s, exec_ldVxDt y _, ?_⟩
  rw [State.reg_setReg_same]
  exact (repeatedTicksSaturate { s with DT := s.reg x } n hstarted hs).1

/-- Settles O23: one tick is a countdown by 1 while the timers tick, and no change otherwise. -/
theorem tickDecrementsBothCounters : Obligations.TickDecrementsBothCounters := by
  intro s
  rw [s.tick_eq_decay]
  refine ⟨fun h => State.decay_counters h 1, fun h => ?_, s.decay_keeps 1⟩
  have hidle : ¬ s.ticking = true := mt s.ticking_iff.mp h
  exact ⟨if_neg hidle, if_neg hidle⟩

end Sys2Proof.Machine
end

section
/-! The frame of the CPU agent's part of a step that goes on, and that no counter rises outside its own write (51_timers.md
R279). -/

namespace Sys2Proof.Machine

variable {s t : State} {i : Instr}

/-- The word at `pc`, which the next cycle fetches (20_memory.md R68). -/
def State.nextWord (s : State) : Word :=
  wordOfBytes (Memory.read s.mem s.pc.toNat) (Memory.read s.mem (s.pc.toNat + 1))

/-- `i` is what the CPU agent's part executes: the instruction of the pending request, else the decoded one. -/
inductive State.Executes (s : State) : Instr → Prop where
  | request (r : KeyRequest) (hwait : s.keyWait = some r) : s.Executes r.instr
  | cycle (i : Instr) (hwait : s.keyWait = none) (hd : decode s.nextWord = .known i) : s.Executes i

/-- An end with the run going is no stop: it is what the instruction computes. -/
theorem Ended.runs_of_running (h : Ended i s t) (ht : t.phase = .running) : Runs i s t := by
  obtain ⟨u, hruns, hends⟩ := h
  cases hends with
  | goesOn => exact hruns
  | fatal e => simp at ht
  | hostFailure k _ => simp at ht

/-- At the top two addresses the fetch or the advance stops the run. -/
theorem fetchAndAdvance_of_gt (h : maxAddr < s.pc.toNat + 2) : ∃ e u, fetchAndAdvance s = .stop (raiseFatal e u) := by
  cases hread : readWord s.mem s.pc.toNat with
  | error e => exact ⟨e, _, fetchAndAdvance_of_fetch_error hread⟩
  | ok w => exact ⟨_, _, fetchAndAdvance_of_advance_error hread (chk12_error _ h)⟩

/-- A cycle that goes on executes the word at `pc`, within the frame of its instruction beside the fetch and the advance. -/
theorem executes_of_cycle (hwait : s.keyWait = none) (h : executeFetched (fetchAndAdvance s) = .next t)
    (ht : t.phase = .running) : ∃ i, s.Executes i ∧ Keeps (mayChange i ++ [.pc, .fetch]) s t := by
  by_cases hpc : s.pc.toNat + 2 ≤ maxAddr
  · have hf : fetchAndAdvance s = .word s.nextWord (s.fetched s.nextWord) := fetchAndAdvance_ok s hpc
    rw [hf] at h
    cases hd : decode s.nextWord with
    | known i =>
      rw [executeFetched_of_known hd] at h
      have hfetch := (s.fetched_keeps s.nextWord).mono (List.subset_append_right (mayChange i) _)
      have hexec := ((ended_of_exec h).runs_of_running ht).frame.mono (List.subset_append_left _ [.pc, .fetch])
      exact ⟨i, .cycle i hwait hd, hfetch.trans hexec⟩
    | unknown w =>
      simp only [executeFetched, hd, Host.Outcome.next.injEq] at h
      simp [← h, unknownInstruction] at ht
  · obtain ⟨e, u, hf⟩ := fetchAndAdvance_of_gt (Nat.lt_of_not_le hpc)
    rw [hf] at h
    cases h
    simp at ht

/-- The CPU agent's part that goes on stays within the frame of the instruction it executes. -/
theorem executes_of_cpuStep (h : cpuStep s = .next t) (ht : t.phase = .running) :
    ∃ i, s.Executes i ∧ Keeps (mayChange i ++ [.pc, .fetch]) s t := by
  unfold cpuStep at h
  cases hwait : s.keyWait with
  | some r =>
    simp only [hwait, Host.Outcome.next.injEq] at h
    subst h
    exact ⟨r.instr, .request r hwait, ((askKey_ended r s).runs_of_running ht).frame.mono (List.subset_append_left _ _)⟩
  | none =>
    simp only [hwait] at h
    exact executes_of_cycle hwait h ht

/-! Which instructions may change a counter. -/

theorem eq_ldDtVx_of_delay_mem (h : Part.delay ∈ mayChange i) : ∃ x, i = .ldDtVx x := by
  cases i <;> simp_all [mayChange]

theorem eq_ldStVx_of_buzzer_mem (h : Part.buzzer ∈ mayChange i) : ∃ x, i = .ldStVx x := by
  cases i <;> simp_all [mayChange]

theorem KeyRequest.timers_not_mem (r : KeyRequest) : Part.delay ∉ mayChange r.instr ∧ Part.buzzer ∉ mayChange r.instr := by
  cases r <;> simp [KeyRequest.instr, mayChange]

/-- A piece that only the instructions `write x` may change, and no key request, is outside the frame of a step's instruction
when the step fetches no `write x`. -/
theorem State.Executes.not_mem {p : Part} {write : Nibble → Instr} (h : s.Executes i)
    (hwrite : ∀ {j}, p ∈ mayChange j → ∃ x, j = write x) (hrequest : ∀ r : KeyRequest, p ∉ mayChange r.instr)
    (hno : ∀ x, s.keyWait = none → decode s.nextWord ≠ .known (write x)) : p ∉ mayChange i := by
  cases h with
  | request r _ => exact hrequest r
  | cycle _ hwait hd =>
    intro hmem
    obtain ⟨x, rfl⟩ := hwrite hmem
    exact hno x hwait hd

/-- The timer agent's turn raises no counter. -/
theorem State.timerPhase_counters_le (s : State) :
    s.timerPhase.DT.toNat ≤ s.DT.toNat ∧ s.timerPhase.ST.toNat ≤ s.ST.toNat := by
  rw [State.timerPhase_DT, State.timerPhase_ST]
  split
  · simp only [countdown_toNat, Nat.sub_le, and_self]
  · exact ⟨le_rfl, le_rfl⟩

/-- Settles O26: the CPU agent's part keeps a counter outside the frame of its instruction, and the timers' turn raises
none. -/
theorem timersRiseOnlyByWrites : Obligations.TimersRiseOnlyByWrites := by
  intro s t hs hstep ht
  obtain ⟨u, hcpu, rfl⟩ : ∃ u, cpuStep s = .next u ∧ t = u.timerPhase := by
    simpa [hs] using step_cases s t hstep
  obtain ⟨i, hexecutes, hframe⟩ := executes_of_cpuStep hcpu ht
  obtain ⟨hDT, hST⟩ := u.timerPhase_counters_le
  refine ⟨fun hno => ?_, fun hno => ?_⟩
  · have hdelay := hexecutes.not_mem eq_ldDtVx_of_delay_mem (fun r => r.timers_not_mem.1) hno
    have hkept : u.DT = s.DT := hframe .delay (by simpa using hdelay)
    exact hkept ▸ hDT
  · have hbuzzer := hexecutes.not_mem eq_ldStVx_of_buzzer_mem (fun r => r.timers_not_mem.2) hno
    have hkept : u.ST = s.ST := hframe .buzzer (by simpa using hbuzzer)
    exact hkept ▸ hST

end Sys2Proof.Machine
end

section
/-! A failing key collaborator (60_exceptions.md R318). -/

namespace Sys2Proof.Machine

theorem askKey_of_failure {s : State} (r : KeyRequest) (h : s.host.takeKey.1 = .failure) :
    askKey r s = s.answered.hostFailure .keyRead := by
  simp only [askKey, h, State.answered]

theorem State.answered_hostFailure_keeps (s : State) (k : HostFailureKind) :
    Keeps [.phase, .out, .keyWait, .host] s (s.answered.hostFailure k) :=
  (s.answered_keeps.mono (by simp)).trans ((State.hostFailure_keeps _ k).mono (by simp [hostStopParts]))

/-- Settles O56: the three instructions ask alike (`exec_instr`), and a failure is the host-failure stop of the asked
state. -/
theorem keyFailureStopsRun : Obligations.KeyFailureStopsRun := by
  intro x s hfail i hi
  obtain ⟨r, rfl⟩ : ∃ r : KeyRequest, i = r.instr := by
    rcases hi with rfl | rfl | rfl
    · exact ⟨.skipIfPressed x, rfl⟩
    · exact ⟨.skipIfNotPressed x, rfl⟩
    · exact ⟨.bind x, rfl⟩
  refine ⟨_, exec_instr r s, ?_⟩
  rw [askKey_of_failure r hfail]
  exact ⟨rfl, rfl, rfl, rfl, s.answered_hostFailure_keeps .keyRead⟩

end Sys2Proof.Machine
end

section
/-! Every fatal stop of the execute part has a cause listed for its instruction (60_exceptions.md R306). -/

namespace Sys2Proof.Machine

variable {i : Instr} {s u : State} {c : Bool} {x : Nibble} {e : Raised}

/-! What the shared operations raise, and that they latch nothing themselves. -/

theorem cause_of_skipIf_error (h : skipIf c s = .error e) : e.cause = .addressOverflow := by
  rcases skipIf_cases c s with ⟨-, hs⟩ | ⟨-, -, a, -, hs⟩ | ⟨-, -, hs⟩ <;> rw [hs] at h <;> cases h
  rfl

theorem cause_of_advanceIndex_error (h : advanceIndex s x = .error e) : e.cause = .addressOverflow := by
  rcases advanceIndex_cases s x with ⟨-, hs⟩ | ⟨-, -, a, -, hs⟩ | ⟨-, -, hs⟩ <;> rw [hs] at h <;> cases h
  rfl

theorem fatal_of_skipIf_ok (h : skipIf c s = .ok u) : u.fatal = s.fatal := by
  rcases skipIf_cases c s with ⟨-, hs⟩ | ⟨-, -, a, -, hs⟩ | ⟨-, -, hs⟩ <;> rw [hs] at h <;> cases h <;> rfl

theorem fatal_of_advanceIndex_ok (h : advanceIndex s x = .ok u) : u.fatal = s.fatal := by
  rcases advanceIndex_cases s x with ⟨-, hs⟩ | ⟨-, -, a, -, hs⟩ | ⟨-, -, hs⟩ <;> rw [hs] at h <;> cases h <;> rfl

theorem State.present_fatal (s : State) : s.present.fatal = s.fatal := by
  rcases present_cases s with ⟨-, h⟩ | ⟨-, h⟩ <;> rw [h]

/-- `LD Vx, K` completes on every answer; a key skip raises what a skip raises. -/
theorem cause_mem_of_finishKey_error {r : KeyRequest} {a : KeyAnswer} (h : finishKey r a s = .error e) :
    e.cause ∈ mayRaise r.instr := by
  cases r with
  | skipIfPressed x | skipIfNotPressed x => exact List.mem_singleton.mpr (cause_of_skipIf_error h)
  | bind x => cases a <;> cases h

/-- `t` is an end of the execute part of `i` begun in `s` that latches nothing, or a fatal stop of the cycle in `s` with a
cause listed for `i`. -/
def StopsListed (i : Instr) (s t : State) : Prop :=
  t.fatal = s.fatal ∨ ∃ cause info, cause ∈ mayRaise i ∧ StopsWith cause info s t

theorem stopsListed_raiseFatal (h : e.cause ∈ mayRaise i) : StopsListed i s (raiseFatal e s) :=
  .inr ⟨e.cause, e.info, h, raiseFatal_stopsWith e s⟩

theorem stopsListed_settle {r : Except Raised State} (hok : ∀ u, r = .ok u → u.fatal = s.fatal)
    (herror : ∀ e, r = .error e → e.cause ∈ mayRaise i) : StopsListed i s (settle s r) := by
  rcases settle_cases s r with ⟨u, hr, hs⟩ | ⟨e, hr, hs⟩ <;> rw [hs]
  · exact .inl (hok u hr)
  · exact stopsListed_raiseFatal (herror e hr)

theorem stopsListed_skipIf (h : .addressOverflow ∈ mayRaise i) : StopsListed i s (settle s (skipIf c s)) :=
  stopsListed_settle (fun _ hu => fatal_of_skipIf_ok hu) fun _ he => cause_of_skipIf_error he ▸ h

theorem stopsListed_advanceIndex (h : .addressOverflow ∈ mayRaise i) (hu : u.fatal = s.fatal) :
    StopsListed i s (settle s (advanceIndex u x)) :=
  stopsListed_settle (fun _ hv => (fatal_of_advanceIndex_ok hv).trans hu)
    fun _ he => cause_of_advanceIndex_error he ▸ h

/-- Asking changes neither the latch nor what a record holds, so a stop of the asked state is one of the cycle in `s`. -/
theorem askKey_stopsListed (r : KeyRequest) (s : State) : StopsListed r.instr s (askKey r s) := by
  rcases askKey_cases r s with ⟨a, t, hf, h⟩ | ⟨a, e, hf, h⟩ | ⟨-, h⟩ | ⟨-, h⟩ <;> rw [h]
  · exact .inl (runs_finishKey r a hf).carries.fatal
  · exact stopsListed_raiseFatal (s := s.answered) (cause_mem_of_finishKey_error hf)
  · exact .inl rfl
  · exact .inl rfl

/-- An instruction that raises a listed cause when a number `n` of its operands passes the bound `m`. -/
theorem exec_stopsListed_of_bound {m n : Nat} (herror : m < n → exec i s = .next (raiseFatal e s))
    (he : e.cause ∈ mayRaise i) (hok : n ≤ m → ∃ t, exec i s = .next t ∧ StopsListed i s t) :
    ∃ t, exec i s = .next t ∧ StopsListed i s t := by
  rcases Nat.lt_or_ge m n with hgt | hle
  · exact ⟨_, herror hgt, stopsListed_raiseFatal he⟩
  · exact hok hle

/-- The execute part of every instruction ends without a new record, or in a stop with a cause listed for it. -/
theorem exec_stopsListed (i : Instr) (s : State) : ∃ t, exec i s = .next t ∧ StopsListed i s t := by
  cases i with
  | jp _ | ldImm _ _ | addImm _ _ | ldReg _ _ | orReg _ _ | andReg _ _ | xorReg _ _ | addReg _ _ | subReg _ _
  | shr _ _ | subn _ _ | shl _ _ | ldI _ | rnd _ _ | ldVxDt _ | ldDtVx _ | ldStVx _ | ldF _ =>
    exact ⟨_, rfl, .inl rfl⟩
  | cls => exact ⟨_, exec_cls s, .inl (State.present_fatal _)⟩
  | skp x => exact ⟨_, rfl, askKey_stopsListed (.skipIfPressed x) s⟩
  | sknp x => exact ⟨_, rfl, askKey_stopsListed (.skipIfNotPressed x) s⟩
  | ldVxK x => exact ⟨_, rfl, askKey_stopsListed (.bind x) s⟩
  | seImm _ _ | sneImm _ _ | seReg _ _ | sneReg _ _ => exact ⟨_, rfl, stopsListed_skipIf (by simp [mayRaise])⟩
  | ret =>
    rcases pop_cases s with ⟨hempty, -⟩ | ⟨rest, a, hstack, -⟩
    · exact ⟨_, exec_ret_of_empty hempty, stopsListed_raiseFatal (by simp [mayRaise])⟩
    · exact ⟨_, exec_ret_of_append hstack, .inl rfl⟩
  | call nnn =>
    by_cases hlimit : s.config.stackLimit = some s.stack.length
    · exact ⟨_, exec_call_of_limit nnn hlimit, stopsListed_raiseFatal (by simp [mayRaise])⟩
    · exact ⟨_, exec_call_of_room nnn hlimit, .inl rfl⟩
  | jpV0 nnn =>
    refine exec_stopsListed_of_bound exec_jpV0_of_gt (by simp [mayRaise]) fun hle => ?_
    obtain ⟨a, -, hexec⟩ := exec_jpV0_of_le hle
    exact ⟨_, hexec, .inl rfl⟩
  | addI x =>
    refine exec_stopsListed_of_bound exec_addI_of_gt (by simp [mayRaise]) fun hle => ?_
    obtain ⟨a, -, hexec⟩ := exec_addI_of_le hle
    exact ⟨_, hexec, .inl rfl⟩
  | ldB x =>
    exact exec_stopsListed_of_bound exec_ldB_of_gt (by simp [mayRaise]) fun hle => ⟨_, exec_ldB_of_le hle, .inl rfl⟩
  | drw x y n =>
    exact exec_stopsListed_of_bound (exec_drw_of_gt x y) (by simp [mayRaise])
      fun hle => ⟨_, exec_drw_of_le x y hle, .inl (State.present_fatal _)⟩
  | save x =>
    exact exec_stopsListed_of_bound exec_save_of_gt (by simp [mayRaise])
      fun hle => ⟨_, exec_save_of_le hle, stopsListed_advanceIndex (by simp [mayRaise]) rfl⟩
  | load x =>
    exact exec_stopsListed_of_bound exec_load_of_gt (by simp [mayRaise])
      fun hle => ⟨_, exec_load_of_le hle, stopsListed_advanceIndex (by simp [mayRaise]) rfl⟩

/-- Settles O21: an end that latches nothing leaves the latch empty, any other is a listed stop (`exec_stopsListed`). -/
theorem fatalCausesAreListed : Obligations.FatalCausesAreListed := by
  intro i s t hexec hs
  obtain ⟨t', hexec', hlisted⟩ := exec_stopsListed i s
  cases hexec'.symm.trans hexec
  exact hlisted.imp_left fun ht => ht.trans hs

end Sys2Proof.Machine
end

section
/-! One step, phase by phase (70_reset_and_hazards.md R341), and what the load and the run start do (R345 to R347). -/

namespace Sys2Proof.Machine

variable {s u t : State}

theorem step_of_constructed (hs : s.phase = .constructed) : step s = .next s.offerImage := by simp only [step, hs]

theorem step_of_loaded (hs : s.phase = .loaded) : step s = .next s.runStart := by simp only [step, hs]

theorem step_of_cpuStep (hs : s.phase = .running) (hcpu : cpuStep s = .next u) : step s = .next u.timerPhase := by
  simp only [step, hs, hcpu, thenTimers]

theorem step_of_stopped (hs : s.phase = .stopped) : step s = .fault .stopped := by simp only [step, hs]

/-- An offered image that fits is put at 0x200 upward and accepted. -/
theorem State.offerImage_of_le (h : s.host.takeImage.1.length ≤ maxImage) :
    s.offerImage = { s with mem := Memory.writeRun s.mem progBase s.host.takeImage.1, phase := .loaded,
                            out := s.out ++ [.loadAccepted], host := s.host.takeImage.2 } :=
  loadImage_accepts _ _ h

/-- An offered image that does not fit is taken from the host and rejected. -/
theorem State.offerImage_of_gt (h : maxImage < s.host.takeImage.1.length) :
    s.offerImage = { s with out := s.out ++ [.loadRejected], host := s.host.takeImage.2 } :=
  loadImage_rejects _ _ h

theorem keeps_setMemPhaseOutHost (s : State) (m : Memory) (p : Phase) (out : List Output) (h : HostInputs) :
    Keeps [.mem, .phase, .out, .host] s { s with mem := m, phase := p, out := out, host := h } := by
  intro p hp
  cases p <;> simp_all [Part.same, State.reg]

theorem State.runStart_keeps (s : State) : Keeps [.started, .phase] s s.runStart := by
  intro p hp
  cases p <;> simp_all [Part.same, State.reg]

/-- An image that fits ends at or below the top of Memory (70_reset_and_hazards.md R345). -/
theorem progBase_add_le_memSize {image : List Byte} (h : image.length ≤ maxImage) :
    progBase + image.length ≤ memSize :=
  Nat.add_le_of_le_sub' (by decide) h

/-- A tick without its precondition is no step (51_timers.md R282). -/
theorem State.tick_of_not_ticking (h : ¬ s.ticking = true) : s.tick = s := by
  simp only [State.tick, if_neg h]

theorem Advances.phase_cases (h : Advances s t) : t.phase = s.phase ∨ t.phase = .stopped := by
  obtain ⟨u, hcarries, hends⟩ := h
  cases hends with
  | goesOn => exact .inl hcarries.phase
  | fatal e => exact .inr rfl
  | hostFailure k _ => exact .inr rfl

/-- The CPU agent's part leaves the run going or stopped. -/
theorem phase_of_cpuStep (hs : s.phase = .running) (hcpu : cpuStep s = .next u) :
    u.phase = .running ∨ u.phase = .stopped :=
  hs ▸ (advances_of_cpuStep hcpu).phase_cases

end Sys2Proof.Machine
end

section
/-! The state before the run stays as constructed (70_reset_and_hazards.md R343 to R348). -/

namespace Sys2Proof.Machine

variable {s : State}

/-- An offered image leaves what `State.Unstarted` speaks of: accepted it writes nothing below 0x200 (R345), rejected it
writes nothing (R346). -/
theorem State.Unstarted.offerImage (h : s.Unstarted) (hm : s.mem.wf) : s.offerImage.Unstarted := by
  by_cases hfits : s.host.takeImage.1.length ≤ maxImage
  · have hlow (a : Nat) (ha : a < progBase) :
        Memory.read (Memory.writeRun s.mem progBase s.host.takeImage.1) a = Memory.unlisted a :=
      (Memory.read_writeRun_outside hm (progBase_add_le_memSize hfits) (.inl ha)).trans (h.lowMemory a ha)
    rw [State.offerImage_of_le hfits]
    exact { h with lowMemory := hlow }
  · rw [State.offerImage_of_gt (Nat.lt_of_not_le hfits)]
    exact { h with }

/-- Settles O14, by the kinds of step (`step_cases`): an offered image keeps `State.Unstarted`, the run start takes `pc` and
Memory over from it, and the run never comes back to a phase before it. -/
theorem stateUnstartedUntilRun : Obligations.StateUnstartedUntilRun := by
  intro s t hm h hstep
  rcases step_cases s t hstep with ⟨hs, rfl⟩ | ⟨hs, rfl⟩ | ⟨hs, u, hcpu, rfl⟩
  · exact ⟨fun _ => (h (.inl hs)).offerImage hm, fun hloaded => by simp [hs] at hloaded⟩
  · have hstart := h (.inr hs)
    exact ⟨by simp, fun _ => ⟨congrArg BitVec.toNat hstart.pc, hstart.lowMemory⟩⟩
  · have hphase := phase_of_cpuStep hs hcpu
    exact ⟨by rcases hphase with hu | hu <;> simp [hu], fun hloaded => by simp [hs] at hloaded⟩

end Sys2Proof.Machine
end

section
/-! The load, the run start and the moves of the phase (70_reset_and_hazards.md R340 to R347). -/

namespace Sys2Proof.Machine

/-- Settles O7: the accepted image is one run of writes at 0x200, read back by `Memory.read_writeRun`. -/
theorem loadAcceptsFittingImage : Obligations.LoadAcceptsFittingImage := by
  intro s hs hm hfits
  refine ⟨_, step_of_constructed hs, ?_⟩
  rw [State.offerImage_of_le hfits]
  exact ⟨fun a => Memory.read_writeRun _ s.mem hm progBase a (progBase_add_le_memSize hfits), rfl, rfl, rfl,
    keeps_setMemPhaseOutHost s _ _ _ _⟩

/-- Settles O8: a rejected image changes the outputs and the host's queue alone. -/
theorem loadRejectsOversizedImage : Obligations.LoadRejectsOversizedImage := by
  intro s hs hlong
  refine ⟨_, step_of_constructed hs, ?_⟩
  rw [State.offerImage_of_gt hlong]
  exact ⟨hs, rfl, rfl, rfl, keeps_setOutHost s _ _⟩

/-- Settles O9: the step from Loaded is `State.runStart`. -/
theorem runStartOpensGate : Obligations.RunStartOpensGate := fun s hs =>
  ⟨_, step_of_loaded hs, rfl, rfl, s.runStart_keeps⟩

/-- Settles O10, phase by phase: the image fits or not, the run goes on or stops, and a stopped block's timers do not tick. -/
theorem phaseMovesOnlyByLifecycle : Obligations.PhaseMovesOnlyByLifecycle := by
  intro s
  refine ⟨fun hs => ⟨_, step_of_constructed hs, ?_⟩, fun hs => ⟨_, step_of_loaded hs, rfl⟩, fun hs => ?_, fun hs => ?_⟩
  · split
    next hfits => rw [State.offerImage_of_le hfits]
    next hlong => rwa [State.offerImage_of_gt (Nat.lt_of_not_le hlong)]
  · obtain ⟨u, hcpu⟩ := cpuStep_next s
    refine ⟨_, step_of_cpuStep hs hcpu, ?_⟩
    rw [State.timerPhase_phase]
    exact phase_of_cpuStep hs hcpu
  · have hidle : ¬ s.ticking = true := by simp [s.ticking_iff, hs]
    rw [State.tick_of_not_ticking hidle]
    exact ⟨step_of_stopped hs, keeps_refl [] s⟩

/-- Settles O12: with no cell listed, no output and nothing latched or pending, only the gate, the count of reports and the
depth of the empty stack are left to see. -/
theorem constructionMeetsInvariant : Obligations.ConstructionMeetsInvariant where
  memory := Memory.wf_nil
  gate := by decide
  latch := by decide
  waiting := by decide
  reports := by decide
  reported := fun r => by simp [State.reset]
  depth := fun _ n _ => Nat.zero_le n

end Sys2Proof.Machine
end

section
/-! A finished program (70_reset_and_hazards.md R350). -/

namespace Sys2Proof.Machine

variable {s t : State}

theorem State.timerPhase_keeps (s : State) : Keeps [.delay, .buzzer, .host] s s.timerPhase := by
  have hqueue : Keeps [.delay, .buzzer, .host] s { s with host := s.host.takeTicks.2 } :=
    (keeps_setHost s _).mono (by simp)
  exact hqueue.trans ((State.decay_keeps _ _).mono (by simp))

/-- The cycle of a jump to its own address leaves all but the record of the cycle. -/
theorem keeps_fetched_selfJump (s : State) (w : Word) : Keeps [.fetch] s { s.fetched w with pc := s.pc } := by
  intro p hp
  cases p <;> simp_all [Part.same, State.reg]

/-- The next step of a finished state is the jump to where it stands, then the timers' turn. -/
theorem State.Finished.step_next (h : s.Finished) (hs : s.phase = .running) (hwait : s.keyWait = none)
    (hpc : s.pc.toNat + 2 ≤ maxAddr) : ∃ u, step s = .next u.timerPhase ∧ Keeps [.fetch] s u := by
  obtain ⟨-, -, hword⟩ := h
  refine ⟨_, ?_, keeps_fetched_selfJump s (encode (.jp s.pc))⟩
  rw [step_of_fetched hs hwait hpc hword.symm, executeFetched_of_known (decode_encode _), exec_jp, thenTimers]

/-- The end-of-run marker is a matter of the latch, `pc` and Memory. -/
theorem State.Finished.of_keeps {c : List Part} (h : s.Finished) (hkeeps : Keeps c s t) (hfatal : .fatal ∉ c)
    (hpc : .pc ∉ c) (hmem : .mem ∉ c) : t.Finished := by
  have hfatal' : t.fatal = s.fatal := hkeeps .fatal hfatal
  have hpc' : t.pc = s.pc := hkeeps .pc hpc
  have hmem' : ∀ a, Memory.read t.mem a = Memory.read s.mem a := hkeeps .mem hmem
  simpa only [State.Finished, hfatal', hpc', hmem'] using h

/-- Settles O18: the self-jump and the timers' turn keep the marker, and the turn raises no counter. -/
theorem finishedProgramStaysFinished : Obligations.FinishedProgramStaysFinished := by
  intro s h hs hwait hpc
  obtain ⟨u, hstep, hjump⟩ := h.step_next hs hwait hpc
  have hkeeps : Keeps [.delay, .buzzer, .fetch, .host] s u.timerPhase :=
    (hjump.mono (by simp)).trans (u.timerPhase_keeps.mono (by simp))
  have hDT : u.DT = s.DT := hjump .delay (by simp)
  have hST : u.ST = s.ST := hjump .buzzer (by simp)
  exact ⟨_, hstep, h.of_keeps hkeeps (by simp) (by simp) (by simp), hkeeps, hDT ▸ hST ▸ u.timerPhase_counters_le⟩

end Sys2Proof.Machine
end
